-- ==== Sys2Proof/Word.lean ====
section
/-! DEFINITION. The word types: cells and registers are 8 bits (rules R20, R30), the program counter 9 (rule R25). -/

namespace Sys2Proof

/-- A memory cell, a register, an operand byte: 8 bits, unsigned, 0 to 255 (rules R8, R20, R30, R38).
UNVERIFIED (log 4): the width is the spec's decision D4. -/
abbrev Byte := BitVec 8

/-- A program counter value: 9 bits, so that it can hold 256 (rules R25, R38).
UNVERIFIED (log 6): the width is the spec's decision D6. -/
abbrev Pc := BitVec 9

/-- The index of a register, 0 to 7 (rule R20). -/
abbrev RegNum := Fin 8

end Sys2Proof
end

