-- ==== Sys2Proof/Config.lean ====
section
/-! DEFINITION. The parameters of the machine (rule R6). -/

namespace Sys2Proof.Config

/-- `N`: the number of memory cells (rules R6, R30). -/
abbrev memCells : Nat := 256

/-- What a cell reads as that nothing has written: memory is "zero-initialized at construction" (rules R30, R33). -/
abbrev unlistedCell : Byte := 0

/-- `R`: the number of registers (rules R6, R20). -/
abbrev regCount : Nat := 8

/-- `SP`: the index of the stack pointer (rule R21). UNVERIFIED (log 3): 7 is the spec's decision D2. -/
abbrev sp : RegNum := 7

/-- `SP_RESET`: the stack pointer's reset value (rules R6, R24, R33). -/
abbrev spReset : Byte := 0xF4

/-- `ORIGIN`'s default: where `load` puts an image when no origin is given (rules R6, R202). -/
abbrev defaultOrigin : Int := 0

/-- `ALU_EXT` as `Machine.step` takes it (rules R6, R166). DESIGN CHOICE (log 1): the spec leaves it open and
recommends `true`; every definition that depends on it takes it as an argument, so both values are modelled. -/
abbrev aluExt : Bool := true

end Sys2Proof.Config
end

