-- ==== Sys2Proof/Syntax.lean ====
section
/-! DEFINITION. The instructions: one constructor per row of spec/opcode_table.json (rule R86), in the table's order. -/

namespace Sys2Proof

/-- An instruction with its raw operand bytes: `a` stands at `pc+1`, `b` at `pc+2` (rules R80, R55). Operand
bytes "reach the instruction raw" (rule R84): a register operand is the whole byte, and a byte of 8 or more is
still an instruction, one that faults when it runs (rules R22, R91; log 25). -/
inductive Instr where
  /-- HLT (rule R130). -/
  | hlt
  /-- LDI a, b: `a` register, `b` immediate (rule R131). -/
  | ldi (a b : Byte)
  /-- PRN a (rule R132). -/
  | prn (a : Byte)
  /-- MUL a, b (rule R140). -/
  | mul (a b : Byte)
  /-- ADD a, b (rule R141). -/
  | add (a b : Byte)
  /-- SUB a, b (rule R142). -/
  | sub (a b : Byte)
  /-- DIV a, b (rule R144). -/
  | div (a b : Byte)
  /-- MOD a, b (rule R145). -/
  | mod (a b : Byte)
  /-- PUSH a (rule R180). -/
  | push (a : Byte)
  /-- POP a (rule R181). -/
  | pop (a : Byte)
  /-- CALL a (rule R182). -/
  | call (a : Byte)
  /-- RET (rule R183). -/
  | ret
  /-- AND a, b, only under `ALU_EXT` (rule R160). -/
  | and (a b : Byte)
  /-- OR a, b, only under `ALU_EXT` (rule R161). -/
  | or (a b : Byte)
  /-- XOR a, b, only under `ALU_EXT` (rule R162). -/
  | xor (a b : Byte)
  /-- NOT a, only under `ALU_EXT` (rule R163). -/
  | not (a : Byte)
  /-- CMP a, b, only under `ALU_EXT` (rule R165). -/
  | cmp (a b : Byte)
  deriving DecidableEq, Repr

end Sys2Proof
end

