-- ==== Sys2Proof/WellFormed.lean ====
section
/-! DEFINITION. Which instructions are well formed: every register operand names a register (rules R84, R85,
R91), and an instruction of the extension is there only under `ALU_EXT` (rule R166). -/

namespace Sys2Proof

/-- The operand bytes an instruction uses as register indices, `a` before `b` (rules R85, R114). -/
def Instr.regOperands : Instr → List Byte
  | .hlt => []
  | .ldi a _ => [a]
  | .prn a => [a]
  | .mul a b => [a, b]
  | .add a b => [a, b]
  | .sub a b => [a, b]
  | .div a b => [a, b]
  | .mod a b => [a, b]
  | .push a => [a]
  | .pop a => [a]
  | .call a => [a]
  | .ret => []
  | .and a b => [a, b]
  | .or a b => [a, b]
  | .xor a b => [a, b]
  | .not a => [a]
  | .cmp a b => [a, b]

/-- The five instructions that exist only when `ALU_EXT` is true (rules R86, R166). -/
def Instr.needsAluExt : Instr → Bool
  | .hlt => false
  | .ldi _ _ => false
  | .prn _ => false
  | .mul _ _ => false
  | .add _ _ => false
  | .sub _ _ => false
  | .div _ _ => false
  | .mod _ _ => false
  | .push _ => false
  | .pop _ => false
  | .call _ => false
  | .ret => false
  | .and _ _ => true
  | .or _ _ => true
  | .xor _ _ => true
  | .not _ => true
  | .cmp _ _ => true

/-- The machine with this `ALU_EXT` has the instruction (rule R166). -/
def Instr.presentIn (aluExt : Bool) (i : Instr) : Bool :=
  aluExt || !i.needsAluExt

/-- Every register operand is below 8 (rule R84): no register index of the instruction faults (rule R91). -/
def Instr.operandsLegal (i : Instr) : Bool :=
  i.regOperands.all fun b => decide (b.toNat < Config.regCount)

/-- Both checks. An instruction that is present but has an illegal operand still decodes, and faults when it
runs (rule R91). -/
def Instr.wellFormed (aluExt : Bool) (i : Instr) : Bool :=
  i.presentIn aluExt && i.operandsLegal

end Sys2Proof
end

