-- ==== Sys2Proof/Decode.lean ====
section
/-! DEFINITION. The decoder and the encoder (30_encoding.md). Selection is by the whole opcode byte (rule R83);
the operand count and the PC-setting bit are read back out of it (rules R81, R82). -/

namespace Sys2Proof

/-- The instruction kinds the decoder selects among (rule R88), in the order of rule R86. -/
inductive Opcode where
  | hlt | ldi | prn | mul | add | sub | div | mod | push | pop | call | ret
  | and | or | xor | not | cmp
  deriving DecidableEq, Repr

/-- Every kind, in the order of rule R86. -/
def Opcode.all : List Opcode :=
  [.hlt, .ldi, .prn, .mul, .add, .sub, .div, .mod, .push, .pop, .call, .ret] ++
  [.and, .or, .xor, .not, .cmp]

/-- The opcode map (rule R86). UNVERIFIED (log 2): only LDI, ADD, PRN and HLT are printed in the source; the other
values are the spec's decision D1. -/
def Opcode.toByte : Opcode → Byte
  | .hlt => 0b00000001
  | .ldi => 0b10000010
  | .prn => 0b01000111
  | .mul => 0b10100010
  | .add => 0b10100000
  | .sub => 0b10100001
  | .div => 0b10100011
  | .mod => 0b10100100
  | .push => 0b01000101
  | .pop => 0b01000110
  | .call => 0b01010000
  | .ret => 0b00010001
  | .and => 0b10101000
  | .or => 0b10101010
  | .xor => 0b10101011
  | .not => 0b01101001
  | .cmp => 0b10100111

/-- The rows of rule R86 marked `ALU_EXT` (rule R166). -/
def Opcode.needsAluExt : Opcode → Bool
  | .hlt => false
  | .ldi => false
  | .prn => false
  | .mul => false
  | .add => false
  | .sub => false
  | .div => false
  | .mod => false
  | .push => false
  | .pop => false
  | .call => false
  | .ret => false
  | .and => true
  | .or => true
  | .xor => true
  | .not => true
  | .cmp => true

/-- `cc`: bits 7:6 of the opcode byte, the number of operand bytes (rules R81, R82). -/
def operandCount (ir : Byte) : Nat :=
  (ir.extractLsb 7 6).toNat

/-- `S`: bit 4 of the opcode byte, "this instruction sets the program counter itself" (rule R81). -/
def setsPc (ir : Byte) : Bool :=
  ir.getLsbD 4

/-- The instruction kind a byte selects, or none for an unknown opcode (rules R83, R88, R89). It looks at nothing
but the byte. -/
def decodeOpcode (aluExt : Bool) (ir : Byte) : Option Opcode :=
  Opcode.all.find? fun k => (k.toByte == ir) && (aluExt || !k.needsAluExt)

/-- The instruction of a kind with operand bytes `a` and `b`; a format with fewer operands leaves the rest out
(rule R80). -/
def Opcode.withOperands (a b : Byte) : Opcode → Instr
  | .hlt => .hlt
  | .ldi => .ldi a b
  | .prn => .prn a
  | .mul => .mul a b
  | .add => .add a b
  | .sub => .sub a b
  | .div => .div a b
  | .mod => .mod a b
  | .push => .push a
  | .pop => .pop a
  | .call => .call a
  | .ret => .ret
  | .and => .and a b
  | .or => .or a b
  | .xor => .xor a b
  | .not => .not a
  | .cmp => .cmp a b

/-- Why a byte sequence holds no instruction. The running machine turns each into the fault of rule R227. -/
inductive DecodeReject where
  /-- There is no byte at all: the fetch at 256 (rule R111). -/
  | noOpcode
  /-- The first byte is an unknown opcode (rule R89). -/
  | unknownOpcode (ir : Byte)
  /-- The opcode is known and an operand byte lies past the end (rules R56, R113). -/
  | missingOperand (ir : Byte)
  deriving DecidableEq, Repr

/-- Decode the instruction at the head of a byte sequence and give the rest back (rules R80, R82). The unknown
opcode is found before any operand is looked at (rule R90). -/
def decode (aluExt : Bool) : List Byte → Except DecodeReject (Instr × List Byte)
  | [] => .error .noOpcode
  | ir :: rest =>
    match decodeOpcode aluExt ir with
    | none => .error (.unknownOpcode ir)
    | some k =>
      match operandCount ir, rest with
      | 0, after => .ok (k.withOperands 0 0, after)
      | 1, a :: after => .ok (k.withOperands a 0, after)
      | _, a :: b :: after => .ok (k.withOperands a b, after)
      | _, _ => .error (.missingOperand ir)

/-- Assembly into bytes (rule R94): the opcode, then `a`, then `b`. -/
def encode : Instr → List Byte
  | .hlt => [Opcode.hlt.toByte]
  | .ldi a b => [Opcode.ldi.toByte, a, b]
  | .prn a => [Opcode.prn.toByte, a]
  | .mul a b => [Opcode.mul.toByte, a, b]
  | .add a b => [Opcode.add.toByte, a, b]
  | .sub a b => [Opcode.sub.toByte, a, b]
  | .div a b => [Opcode.div.toByte, a, b]
  | .mod a b => [Opcode.mod.toByte, a, b]
  | .push a => [Opcode.push.toByte, a]
  | .pop a => [Opcode.pop.toByte, a]
  | .call a => [Opcode.call.toByte, a]
  | .ret => [Opcode.ret.toByte]
  | .and a b => [Opcode.and.toByte, a, b]
  | .or a b => [Opcode.or.toByte, a, b]
  | .xor a b => [Opcode.xor.toByte, a, b]
  | .not a => [Opcode.not.toByte, a]
  | .cmp a b => [Opcode.cmp.toByte, a, b]

/-- The longest instruction's three bytes, laid out as the machine stores them, from a number whose low 8 bits are
the first byte; bits from `nbits` up are taken as 0. -/
def tableBytes (nbits w : Nat) : List Byte :=
  let v := w % 2 ^ nbits
  [BitVec.ofNat 8 v, BitVec.ofNat 8 (v / 256), BitVec.ofNat 8 (v / 65536)]

/-- The instruction the decoder reads from a word of the opcode table. -/
def decodeTableWord (nbits w : Nat) : Option Instr :=
  match decode Config.aluExt (tableBytes nbits w) with
  | .ok (i, _) => some i
  | .error _ => none

end Sys2Proof
end

