-- ==== Sys2Proof/Machine/State.lean ====
section
/-! DEFINITION. The architectural state (10_state.md), the fault causes and events, the reset state, and the ways
the model itself can stop. -/

namespace Sys2Proof.Machine

/-- The two instructions that can report a division by zero (rules R31, R147). -/
inductive DivOp where
  | div
  | mod
  deriving DecidableEq, Repr

/-- What was indexed out of bounds (rule R220): memory at an exact integer address, or the register file. -/
inductive BadIndex where
  /-- `MemAddr`: the out-of-range address as an integer. -/
  | memAddr (addr : Int)
  /-- `RegIndex`: the offending operand byte. -/
  | regIndex (index : Byte)
  deriving DecidableEq, Repr

/-- `FaultCause` (rules R28, R220). UNVERIFIED (log 9): names and fields are the spec's decision D9. -/
inductive FaultCause where
  /-- Code 1: the byte fetched, and the value of `pc` (rule R221). -/
  | unknownInstruction (opcode : Byte) (pc : Pc)
  /-- Codes 2 and 3: an address fault (rule R222). -/
  | addressFault (what : BadIndex)
  deriving DecidableEq, Repr

/-- An entry of the event trace (rule R31). UNVERIFIED (logs 14, 15): one ordered list and its fields are D14, D15. -/
inductive Event where
  /-- A value printed by PRN (rule R132). -/
  | print (v : Byte)
  /-- DIV or MOD by zero at the instruction's address (rule R147). -/
  | divideByZero (op : DivOp) (pc : Pc)
  /-- A fault was taken (rule R226). -/
  | fault (c : FaultCause)
  deriving DecidableEq, Repr

/-- The run state (rule R27). -/
inductive RunState where
  | preRun
  | running
  | halted
  | faulted
  deriving DecidableEq, Repr

/-- Memory as the cells that do not read as `Config.unlistedCell`, addresses strictly rising (log 24). -/
abbrev Memory := List Host.Cell

/-- The canonical form: addresses strictly rising, every one in `[0, 256)` (rule R30), and no listed cell equal to
what an unlisted one reads as. -/
abbrev Memory.wf (m : Memory) : Prop :=
  m.Pairwise (fun c d => c.1 < d.1) ∧ ∀ c ∈ m, c.1 < Config.memCells ∧ c.2 ≠ Config.unlistedCell

/-- The complete state (10_state.md: "Nothing else is state"). -/
structure State where
  /-- The register file `x[0]` to `x[7]` (rules R20, R21). -/
  x : Vector Byte 8
  /-- The program counter (rule R25). -/
  pc : Pc
  /-- The memory array (rule R30). -/
  mem : Memory
  /-- The run state (rule R27). -/
  run : RunState
  /-- The fault cause, none unless `run` is `faulted` (rule R28). -/
  cause : Option FaultCause
  /-- The event trace, oldest first (rule R31). -/
  trace : List Event
  /-- The flags register `00000LGE` (rule R29). With `ALU_EXT` false the machine has no such register: the field
  then stays 0, since nothing writes it (log 21). -/
  fl : Byte
  deriving DecidableEq, Repr

/-- The state after reset (rules R33, R201, R260). UNVERIFIED (logs 13, 21): zero in `x[0]` to `x[6]`, `cause`,
`trace` and `fl` are the spec's decisions D13 and D21. -/
def State.reset : State where
  x := (Vector.replicate 8 0).set Config.sp Config.spReset
  pc := 0
  mem := []
  run := .preRun
  cause := none
  trace := []
  fl := 0

/-- Why the model's `step` has no next state: the core takes steps only in `Running` (rules R27, R119). No
instruction raises one of these, and a machine fault (rule R224) is not one: it is a next state. -/
inductive Fault where
  /-- Raised by `step` in `PreRun`: the host has not invoked `run()` (rule R203). Safe: there is no step to model. -/
  | beforeRun
  /-- Raised by `step` in `Halted`, which is terminal (rule R119). Safe: there is no step to model. -/
  | afterHalt
  /-- Raised by `step` in `Faulted`, which is terminal (rules R119, R228). Safe: there is no step to model. -/
  | afterFault
  deriving DecidableEq, Repr

/-- Why an instruction has no meaning here. -/
inductive Refusal where
  /-- Raised by `exec` alone, for an instruction with no meaning yet; no arm raises it now. Safe. -/
  | notModelled (mnemonic : String)
  deriving DecidableEq, Repr

/-- The outcome of a step or an instruction. -/
abbrev Outcome := Host.Outcome State Fault Refusal

end Sys2Proof.Machine
end

