-- ==== Sys2Proof/Machine/Ops.lean ====
section
/-! DEFINITION. The named operations over registers, memory, the trace and the program counter (rule R9), and
taking a fault (rule R224). -/

namespace Sys2Proof.Machine

/-! Registers. -/

/-- `x[i]` (rule R20). -/
def State.readReg (s : State) (r : RegNum) : Byte :=
  s.x[r]

/-- `x[i] <- v` (rule R20). No register is hardwired (rule R20). -/
def State.writeReg (s : State) (r : RegNum) (v : Byte) : State :=
  { s with x := s.x.set r v }

/-- Reduce an exact integer result modulo 256, as every value written to a register or cell is (rules R38, R146).
UNVERIFIED (log 4): the spec's decision D4. -/
def narrow (n : Int) : Byte :=
  BitVec.ofInt 8 n

/-! Memory. -/

/-- The content of a cell (rule R30). -/
def Memory.read : Memory → Nat → Byte
  | [], _ => Config.unlistedCell
  | (k, v) :: m, a => if k = a then v else Memory.read m a

/-- Put a cell into its place; the address is not listed before. -/
def Memory.insert (a : Nat) (v : Byte) : Memory → Memory
  | [] => [(a, v)]
  | (k, w) :: m => if a < k then (a, v) :: (k, w) :: m else (k, w) :: Memory.insert a v m

/-- Set the content of a cell, in the canonical form: a cell that reads as an unlisted one is not listed. -/
def Memory.write (m : Memory) (a : Nat) (v : Byte) : Memory :=
  let others := m.filter fun c => decide (c.1 ≠ a)
  if v = Config.unlistedCell then others else Memory.insert a v others

/-- The content of cell `a` of a state's memory. -/
def State.readCell (s : State) (a : Nat) : Byte :=
  Memory.read s.mem a

/-- An exact integer address is in `[0, N)` (rules R51, R52, R53). -/
def addrInRange (addr : Int) : Bool :=
  decide (0 ≤ addr ∧ addr < Config.memCells)

/-- `MemRead(addr, 1)` (rule R52). -/
def memRead (addr : Int) (s : State) : Except FaultCause Byte :=
  if addrInRange addr then .ok (s.readCell addr.toNat) else .error (.addressFault (.memAddr addr))

/-- `MemWrite(addr, 1, v)` (rule R53). -/
def memWrite (addr : Int) (v : Byte) (s : State) : Except FaultCause State :=
  if addrInRange addr then .ok { s with mem := Memory.write s.mem addr.toNat v }
  else .error (.addressFault (.memAddr addr))

/-! The stack (rule R184): `x[7]` is the address of the top item. -/

/-- The address of the top item, which POP and RET read: never out of range (rules R181, R183, R184). -/
def stackTop (s : State) : Int :=
  (s.readReg Config.sp).toNat

/-- The address PUSH and CALL store to: `x[7] - 1` as an exact integer, -1 to 254 (rules R180, R182, R185). -/
def stackPushAddr (s : State) : Int :=
  (s.readReg Config.sp).toNat - 1

/-- Decrement the stack pointer, then store at it the value `v` gives of the decremented state: the textual order
of rules R180, R182, R187. UNVERIFIED (logs 7, 12): D7, D12. At `x[7] = 0` the address is -1 and the write raises. -/
def pushValue (v : State → Byte) (s : State) : Except FaultCause State :=
  let addr := stackPushAddr s
  let t := s.writeReg Config.sp (narrow addr)
  memWrite addr (v t) t

/-- Increment the stack pointer modulo 256 (rules R181, R183, R185). UNVERIFIED (log 7): D7. -/
def incrementSp (s : State) : State :=
  s.writeReg Config.sp (narrow ((s.readReg Config.sp).toNat + 1))

/-! The trace. -/

/-- `emit e`: append an event (rules R9, R31). -/
def emit (e : Event) (s : State) : State :=
  { s with trace := s.trace ++ [e] }

/-! The end of a step. -/

/-- The advance (rule R116): `pc <- pc + 1 + cc` unless the opcode has `S = 1`. The sum is not reduced modulo 256. -/
def advance (k : Opcode) (s : State) : State :=
  if setsPc k.toByte then s else { s with pc := s.pc + BitVec.ofNat 9 (1 + operandCount k.toByte) }

/-- Taking a fault (rules R224, R225, R226): `s` is the state before the step, so every write the step made is
discarded. There is no handler, no vector and no return (rule R228). UNVERIFIED (log 10): precise by D10. -/
def takeFault (c : FaultCause) (s : State) : State :=
  emit (.fault c) { s with run := .faulted, cause := some c }

/-- The end of an instruction's execute phase, begun in state `s` (rule R110): the advance where it completed, the
fault taken in `s` where it raised. -/
def conclude (k : Opcode) (s : State) : Except FaultCause State → Outcome
  | .ok t => .next (advance k t)
  | .error c => .next (takeFault c s)

end Sys2Proof.Machine
end

