-- ==== Sys2Proof/Machine/Operands.lean ====
section
/-! DEFINITION. The operand forms (rules R84, R85): a register index checked to be below 8, and LDI's raw
immediate byte, which needs no operation. The two shapes of a register-to-register instruction stand here too. -/

namespace Sys2Proof.Machine

/-- The register a legal operand byte names (rule R84). -/
abbrev reg (b : Byte) (h : b.toNat < Config.regCount) : RegNum := ⟨b.toNat, h⟩

/-- `RegIndex(b)` (rules R9, R22): the whole byte, with no bit masked off. -/
def regIndex (b : Byte) : Except FaultCause RegNum :=
  if h : b.toNat < Config.regCount then .ok (reg b h) else .error (.addressFault (.regIndex b))

/-- Validate both register operands, `a` first (rules R114, R143). UNVERIFIED (log 11): the order is D11. -/
def regPair (a b : Byte) : Except FaultCause (RegNum × RegNum) := do
  let ra ← regIndex a
  let rb ← regIndex b
  return (ra, rb)

/-- `x[a] <- f(x[a], x[b])` (rules R143, R164): both operands are read before the result is written. -/
def binaryOp (f : Byte → Byte → Byte) (a b : Byte) (s : State) : Except FaultCause State := do
  let (ra, rb) ← regPair a b
  return s.writeReg ra (f (s.readReg ra) (s.readReg rb))

/-- `x[a] <- f(x[a], x[b])` unless `x[b] = 0`, where the division by zero is reported with the instruction's address
and nothing is written (rules R144, R145, R147, R223). UNVERIFIED (log 15): the event's fields are D15. -/
def divisionOp (op : DivOp) (f : Byte → Byte → Byte) (a b : Byte) (s : State) : Except FaultCause State := do
  let (ra, rb) ← regPair a b
  if s.readReg rb = 0 then
    return emit (.divideByZero op s.pc) s
  else
    return s.writeReg ra (f (s.readReg ra) (s.readReg rb))

end Sys2Proof.Machine
end

