-- ==== Sys2Proof/Machine/Alu.lean ====
section
/-! DEFINITION. The ALU functions and the meanings of MUL, ADD, SUB, DIV and MOD (42_alu.md). Operands are unsigned
integers; the operation is exact and the result is reduced modulo 256 (rule R146). -/

namespace Sys2Proof.Machine

/-- The low byte of the exact product (rules R140, R146). -/
def aluMul (u v : Byte) : Byte := narrow (u.toNat * v.toNat)

/-- The exact sum modulo 256 (rules R141, R146). -/
def aluAdd (u v : Byte) : Byte := narrow (u.toNat + v.toNat)

/-- The exact difference modulo 256 (rules R142, R146). -/
def aluSub (u v : Byte) : Byte := narrow (u.toNat - v.toNat)

/-- The unsigned quotient for `v > 0` (rules R144, R146). UNVERIFIED (log 5): D5. -/
def aluDiv (u v : Byte) : Byte := BitVec.ofNat 8 (u.toNat / v.toNat)

/-- The unsigned remainder for `v > 0` (rules R145, R146). UNVERIFIED (log 5): D5. -/
def aluMod (u v : Byte) : Byte := BitVec.ofNat 8 (u.toNat % v.toNat)

/-- MUL a, b (rule R140). -/
def execMul (a b : Byte) (s : State) : Outcome :=
  conclude .mul s (binaryOp aluMul a b s)

/-- ADD a, b (rule R141). -/
def execAdd (a b : Byte) (s : State) : Outcome :=
  conclude .add s (binaryOp aluAdd a b s)

/-- SUB a, b (rule R142). -/
def execSub (a b : Byte) (s : State) : Outcome :=
  conclude .sub s (binaryOp aluSub a b s)

/-- DIV a, b (rule R144). -/
def execDiv (a b : Byte) (s : State) : Outcome :=
  conclude .div s (divisionOp .div aluDiv a b s)

/-- MOD a, b (rule R145). -/
def execMod (a b : Byte) (s : State) : Outcome :=
  conclude .mod s (divisionOp .mod aluMod a b s)

end Sys2Proof.Machine
end

