-- ==== Sys2Proof/Machine/Flags.lean ====
section
/-! DEFINITION. The flags register `FL = 00000LGE` (rules R29, R165). It is the only flags register, and CMP the only
instruction that writes it: ADD, SUB, MUL, DIV, MOD, AND, OR, XOR and NOT compute no flag. UNVERIFIED (log 21): D21. -/

namespace Sys2Proof.Machine

/-- `L`: bit 2 of `FL`, less than (rule R29). -/
def flagL (fl : Byte) : Bool := fl.getLsbD 2

/-- `G`: bit 1 of `FL`, greater than (rule R29). -/
def flagG (fl : Byte) : Bool := fl.getLsbD 1

/-- `E`: bit 0 of `FL`, equal (rule R29). -/
def flagE (fl : Byte) : Bool := fl.getLsbD 0

/-- The value CMP writes: `4*L + 2*G + E` by unsigned comparison (rule R165). -/
def compareFlags (u v : Byte) : Byte :=
  let l := if u.toNat < v.toNat then 1 else 0
  let g := if u.toNat > v.toNat then 1 else 0
  let e := if u.toNat = v.toNat then 1 else 0
  BitVec.ofNat 8 (4 * l + 2 * g + e)

end Sys2Proof.Machine
end

