-- ==== Sys2Proof/Machine/AluExt.lean ====
section
/-! DEFINITION. The meanings of AND, OR, XOR, NOT and CMP (43_alu_ext.md). Whether they exist is the decoder's matter
(rule R166). UNVERIFIED (log 22): their shapes and effects are the spec's, from general knowledge. -/

namespace Sys2Proof.Machine

/-- AND a, b (rule R160). -/
def execAnd (a b : Byte) (s : State) : Outcome :=
  conclude .and s (binaryOp (fun u v => u &&& v) a b s)

/-- OR a, b (rule R161). -/
def execOr (a b : Byte) (s : State) : Outcome :=
  conclude .or s (binaryOp (fun u v => u ||| v) a b s)

/-- XOR a, b (rule R162). -/
def execXor (a b : Byte) (s : State) : Outcome :=
  conclude .xor s (binaryOp (fun u v => u ^^^ v) a b s)

/-- NOT a (rule R163): every bit inverted. -/
def execNot (a : Byte) (s : State) : Outcome :=
  conclude .not s do
    let ra ← regIndex a
    return s.writeReg ra (~~~(s.readReg ra))

/-- CMP a, b (rule R165): no register is written. -/
def execCmp (a b : Byte) (s : State) : Outcome :=
  conclude .cmp s do
    let (ra, rb) ← regPair a b
    return { s with fl := compareFlags (s.readReg ra) (s.readReg rb) }

end Sys2Proof.Machine
end

