-- ==== Sys2Proof/Machine/Stack.lean ====
section
/-! DEFINITION. The meanings of PUSH, POP, CALL and RET (44_stack_and_call.md). -/

namespace Sys2Proof.Machine

/-- PUSH a (rule R180): `x[a]` is read after the decrement, so `PUSH R7` stores the decremented value (rule R187). -/
def execPush (a : Byte) (s : State) : Outcome :=
  conclude .push s do
    let ra ← regIndex a
    pushValue (fun t => t.readReg ra) s

/-- POP a (rule R181): the increment reads `x[7]` after the write of `x[a]` (rule R187). -/
def execPop (a : Byte) (s : State) : Outcome :=
  conclude .pop s do
    let ra ← regIndex a
    let v ← memRead (stackTop s) s
    return incrementSp (s.writeReg ra v)

/-- The return address CALL pushes: `(pc + 2) mod 256` (rule R182). UNVERIFIED (log 8): the reduction is D8. -/
def returnAddress (s : State) : Byte :=
  narrow (s.pc.toNat + 2)

/-- CALL a (rule R182): the target is read after the push (rule R187) and zero-extended into `pc`. -/
def execCall (a : Byte) (s : State) : Outcome :=
  conclude .call s do
    let ra ← regIndex a
    let t ← pushValue (fun _ => returnAddress s) s
    return { t with pc := (t.readReg ra).setWidth 9 }

/-- RET (rule R183). -/
def execRet (s : State) : Outcome :=
  conclude .ret s do
    let v ← memRead (stackTop s) s
    return { incrementSp s with pc := v.setWidth 9 }

end Sys2Proof.Machine
end

