-- ==== Sys2Proof/Machine/System.lean ====
section
/-! DEFINITION. The meanings of HLT, LDI and PRN (41_system_and_data.md). -/

namespace Sys2Proof.Machine

/-- HLT (rule R130): the step completes, the advance included. -/
def execHlt (s : State) : Outcome :=
  conclude .hlt s (.ok { s with run := .halted })

/-- LDI a, b (rule R131): the immediate is the raw byte. -/
def execLdi (a b : Byte) (s : State) : Outcome :=
  conclude .ldi s do
    let ra ← regIndex a
    return s.writeReg ra b

/-- PRN a (rule R132). -/
def execPrn (a : Byte) (s : State) : Outcome :=
  conclude .prn s do
    let ra ← regIndex a
    return emit (.print (s.readReg ra)) s

end Sys2Proof.Machine
end

