-- ==== Sys2Proof/Machine/Cycle.lean ====
section
/-! DEFINITION. The fetch-decode-execute step (40_instruction_cycle.md), with `ALU_EXT` as an argument. -/

namespace Sys2Proof.Machine

/-- The fetch, decode and operand-read phases (rules R110 to R113): the opcode at `pc`; the unknown-opcode check
before any operand is read (rule R90); then exactly `cc` operand bytes, `a` before `b`. -/
def fetch (aluExt : Bool) (s : State) : Except FaultCause Instr := do
  let ir ← memRead s.pc.toNat s
  match decodeOpcode aluExt ir with
  | none => throw (.unknownInstruction ir s.pc)
  | some k =>
    let a ← if operandCount ir ≥ 1 then memRead (s.pc.toNat + 1) s else pure 0
    let b ← if operandCount ir = 2 then memRead (s.pc.toNat + 2) s else pure 0
    return k.withOperands a b

/-- One step of a running core (rule R110); the register operands are validated in each instruction's meaning,
before it has any effect (rule R114). -/
def runningStep (aluExt : Bool) (s : State) : Outcome :=
  match fetch aluExt s with
  | .ok i => exec i s
  | .error c => .next (takeFault c s)

/-- One step of the machine: the core takes steps only in `Running` (rules R27, R119). -/
def stepWith (aluExt : Bool) (s : State) : Outcome :=
  match s.run with
  | .preRun => .fault .beforeRun
  | .running => runningStep aluExt s
  | .halted => .fault .afterHalt
  | .faulted => .fault .afterFault

/-- Store bytes at consecutive addresses. -/
def Memory.writeList (m : Memory) (a : Nat) : List Byte → Memory
  | [] => m
  | v :: vs => Memory.writeList (Memory.write m a v) (a + 1) vs

/-- Where three bytes can be placed for the next fetch: at `pc`, or at 0 where they would run past the last cell. -/
def fetchSlot (s : State) : Pc :=
  if s.pc.toNat + 2 < Config.memCells then s.pc else 0

/-- `s` with the bytes of a table word placed where the next step fetches, and running, as after `load` and `run()`
(rules R202, R203; log 19). `pc` changes only where the bytes do not fit behind it. -/
def placeFetchWord (nbits w : Nat) (s : State) : State :=
  { s with
    mem := Memory.writeList s.mem (fetchSlot s).toNat (tableBytes nbits w)
    pc := fetchSlot s
    run := .running }

end Sys2Proof.Machine
end

