-- ==== Sys2Proof/Machine/Step.lean ====
section
/-! DEFINITION. The step under the host's fixed names. -/

namespace Sys2Proof.Machine

/-- One step, with `ALU_EXT` as the configuration has it (log 1). -/
def step (s : State) : Host.Outcome State Fault Refusal :=
  stepWith Config.aluExt s

/-- `s` with an instruction stored where `step` fetches next, and running (log 19). -/
def State.withFetchWord (s : State) (nbits w : Nat) : State :=
  placeFetchWord nbits w s

end Sys2Proof.Machine
end

