-- ==== Sys2Proof/Machine/HostOps.lean ====
section
/-! DEFINITION. The host interface (45_host_operations.md): reset, `load`, `run()`, the status and the console. The
host acts only outside a run (rules R36, R208). -/

namespace Sys2Proof.Machine

/-- Why a host operation has no effect. -/
inductive HostReject where
  /-- The operation is not legal in this run state (rule R207): the model gives it no move. -/
  | wrongRunState
  /-- The image does not fit: the load is refused whole (rule R202; log 17). -/
  | imageDoesNotFit
  deriving DecidableEq, Repr

/-- Reset, legal but during a run (rules R200, R201, R207): the whole state takes its reset values. -/
def hostReset (s : State) : Except HostReject State :=
  if s.run = .running then .error .wrongRunState else .ok State.reset

/-- `load(bytes, origin)` (rule R202). UNVERIFIED (logs 16, 17): `pc <- origin` is D16, the refusal whole is D17. -/
def hostLoad (bytes : List Byte) (s : State) (origin : Int := Config.defaultOrigin) : Except HostReject State :=
  if s.run ≠ .preRun then .error .wrongRunState
  else if origin < 0 ∨ origin + bytes.length > Config.memCells then .error .imageDoesNotFit
  else .ok { s with
    mem := Memory.writeList s.mem origin.toNat bytes
    pc := BitVec.ofNat 9 origin.toNat }

/-- The invocation of `run()` (rule R203): legal in `PreRun`, it sets `run <- Running`. -/
def hostStart (s : State) : Except HostReject State :=
  if s.run = .preRun then .ok { s with run := .running } else .error .wrongRunState

/-- A run has ended exactly when `run` is `Halted` or `Faulted` (rule R121). -/
def State.ended (s : State) : Bool :=
  s.run = .halted || s.run = .faulted

/-- The run loop (rule R119) under fuel (rule R120; log 26): step after step until no step is taken. -/
def runLoop (aluExt : Bool) : Nat → State → State
  | 0, s => s
  | n + 1, s =>
    match stepWith aluExt s with
    | .next t => runLoop aluExt n t
    | .fault _ => s
    | .refused _ => s

/-- The status the host gets back when a run has ended: the pair (`run`, `cause`) (rule R204). -/
def State.status (s : State) : Option (RunState × Option FaultCause) :=
  if s.ended then some (s.run, s.cause) else none

/-- `run()` (rule R203): start, take steps, and return the final state and its status if the run ends within the
fuel; none if it has not ended (rule R120). -/
def hostRun (aluExt : Bool) (fuel : Nat) (s : State) :
    Except HostReject (Option (State × (RunState × Option FaultCause))) := do
  let t ← hostStart s
  let u := runLoop aluExt fuel t
  return u.status.map fun st => (u, st)

/-- The decimal digit of a number below 10. -/
def digitChar (d : Nat) : Char :=
  Char.ofNat ('0'.toNat + d)

/-- The unsigned decimal numeral of a byte, most significant digit first, no leading zeros, `0` for zero (rules R132,
R205). UNVERIFIED (log 14): decimal is D14. -/
def decimalNumeral (v : Byte) : List Char :=
  let n := v.toNat
  if n < 10 then [digitChar n]
  else if n < 100 then [digitChar (n / 10), digitChar (n % 10)]
  else [digitChar (n / 100), digitChar (n / 10 % 10), digitChar (n % 10)]

/-- What the host writes to the standard output for one event: a `Print` is one line, a diagnostic nothing there
(rules R205, R206). DESIGN CHOICE (log 14): the line end is a newline character. -/
def eventLine : Event → List Char
  | .print v => decimalNumeral v ++ ['\n']
  | .divideByZero _ _ => []
  | .fault _ => []

/-- The standard output of a trace (rule R205): its `Print` events in order. -/
def consoleOutput (trace : List Event) : List Char :=
  trace.flatMap eventLine

/-- The diagnostics of a trace, in order (rule R206); their wording is the host's. -/
def diagnostics (trace : List Event) : List Event :=
  trace.filter fun e =>
    match e with
    | .print _ => false
    | .divideByZero _ _ => true
    | .fault _ => true

/-- The numeric code of a fault cause (rule R220). -/
def FaultCause.code : FaultCause → Nat
  | .unknownInstruction _ _ => 1
  | .addressFault (.memAddr _) => 2
  | .addressFault (.regIndex _) => 3

end Sys2Proof.Machine
end

