-- ==== Sys2Proof/Safety.lean ====
section
/-! DEFINITION. What counts as a good state and a safe run, and the terms the statements use: frames, the bytes ahead
of the program counter, repeated instructions. -/

namespace Sys2Proof.Machine

/-! Good states. -/

/-- The event is a `Fault` (rule R31). -/
def Event.isFault : Event → Bool
  | .print _ => false
  | .divideByZero _ _ => false
  | .fault _ => true

/-- The recorded values a fault cause can have in a run (rule R220): an unknown opcode at an address of a cell, the
addresses -1 and 256, an index of 8 to 255. -/
def FaultCause.legal (aluExt : Bool) : FaultCause → Prop
  | .unknownInstruction op pc => decodeOpcode aluExt op = none ∧ pc.toNat < Config.memCells
  | .addressFault (.memAddr addr) => addr = -1 ∨ addr = 256
  | .addressFault (.regIndex index) => Config.regCount ≤ index.toNat

/-- `run`, `cause` and the trace agree (rules R28, R226): a faulted machine's trace ends with the one `Fault` event of
its cause; in any other run state there is no cause and no such event. -/
def FaultsReported (s : State) : Prop :=
  if s.run = .faulted then
    ∃ c es, s.cause = some c ∧ s.trace = es ++ [.fault c] ∧ ∀ e ∈ es, e.isFault = false
  else s.cause = none ∧ ∀ e ∈ s.trace, e.isFault = false

/-- A good state: what every state the machine reaches satisfies. -/
structure GoodState (aluExt : Bool) (s : State) : Prop where
  /-- Memory has its canonical form, inside the 256 cells (rule R30). -/
  memWf : Memory.wf s.mem
  /-- `pc` is 0 to 256 (rules R25, R38). -/
  pcBound : s.pc.toNat ≤ 256
  /-- `FL` is 0, or exactly one of `L`, `G`, `E` is set and bits 7:3 are 0 (rules R29, R165). -/
  flLegal : s.fl = 0 ∨ s.fl = 1 ∨ s.fl = 2 ∨ s.fl = 4
  /-- Without the extension there is no `FL`: the field stays 0 (rule R166). -/
  flAbsent : aluExt = false → s.fl = 0
  /-- Causes and `Fault` events agree with the run state (rules R28, R226). -/
  reported : FaultsReported s
  /-- A recorded cause has a value the machine can produce (rule R220). -/
  causeLegal : ∀ c, s.cause = some c → c.legal aluExt

/-! Frames. -/

/-- Every byte of memory reads as before. -/
def SameMemory (s t : State) : Prop :=
  ∀ a : Nat, t.readCell a = s.readCell a

/-- Every byte of memory but the one at `addr` reads as before. -/
def SameMemoryBut (addr : Int) (s t : State) : Prop :=
  ∀ a : Nat, (a : Int) ≠ addr → t.readCell a = s.readCell a

/-- Every register but those listed is unchanged. -/
def SameRegistersBut (rs : List RegNum) (s t : State) : Prop :=
  ∀ r, r ∉ rs → t.readReg r = s.readReg r

/-- `run`, `cause` and `FL` are unchanged. -/
def SameControl (s t : State) : Prop :=
  t.run = s.run ∧ t.cause = s.cause ∧ t.fl = s.fl

/-- Nothing changes but `pc`, which moves past an instruction of `len` bytes, and the trace, which becomes `trace`. -/
def WritesTrace (s t : State) (trace : List Event) (len : Nat) : Prop :=
  t.trace = trace ∧ SameRegistersBut [] s t ∧ SameMemory s t ∧ SameControl s t ∧
    t.pc = s.pc + BitVec.ofNat 9 len

/-- The completed effect of an instruction of `len` bytes that writes one register and nothing else but `pc`. -/
def WritesRegister (s t : State) (rd : RegNum) (v : Byte) (len : Nat) : Prop :=
  t.readReg rd = v ∧ SameRegistersBut [rd] s t ∧ SameMemory s t ∧ SameControl s t ∧ t.trace = s.trace ∧
    t.pc = s.pc + BitVec.ofNat 9 len

/-- The state is faulted with this cause, and reports it as one event after those of `s` (rules R224, R226). -/
def FaultedWith (c : FaultCause) (s t : State) : Prop :=
  t.run = .faulted ∧ t.cause = some c ∧ t.trace = s.trace ++ [.fault c]

/-- Everything but `run`, `cause` and the trace is as before (rule R225). -/
def OnlyFaultFieldsChanged (s t : State) : Prop :=
  SameRegistersBut [] s t ∧ SameMemory s t ∧ t.pc = s.pc ∧ t.fl = s.fl

/-- The address an instruction stores to, with the function its meaning uses (rules R37, R57): PUSH and CALL store
one byte, the others none. -/
def storeAddr (i : Instr) (s : State) : Option Int :=
  match i with
  | .push _ => some (stackPushAddr s)
  | .call _ => some (stackPushAddr s)
  | .hlt => none
  | .ldi _ _ => none
  | .prn _ => none
  | .mul _ _ => none
  | .add _ _ => none
  | .sub _ _ => none
  | .div _ _ => none
  | .mod _ _ => none
  | .pop _ => none
  | .ret => none
  | .and _ _ => none
  | .or _ _ => none
  | .xor _ _ => none
  | .not _ => none
  | .cmp _ _ => none

/-- The registers an instruction writes (rule R37): its destination operand, and the stack pointer for PUSH, POP,
CALL and RET. -/
def writtenRegs (i : Instr) (r : RegNum) : Bool :=
  match i with
  | .hlt => false
  | .ldi a _ => a.toNat == r.val
  | .prn _ => false
  | .mul a _ => a.toNat == r.val
  | .add a _ => a.toNat == r.val
  | .sub a _ => a.toNat == r.val
  | .div a _ => a.toNat == r.val
  | .mod a _ => a.toNat == r.val
  | .push _ => r == Config.sp
  | .pop a => a.toNat == r.val || r == Config.sp
  | .call _ => r == Config.sp
  | .ret => r == Config.sp
  | .and a _ => a.toNat == r.val
  | .or a _ => a.toNat == r.val
  | .xor a _ => a.toNat == r.val
  | .not a => a.toNat == r.val
  | .cmp _ _ => false

/-! The bytes ahead of the program counter, and words. -/

/-- The memory bytes from `pc` up to the last cell (rules R55, R80); none where `pc` is past it. -/
def codeFrom (s : State) : List Byte :=
  (List.range' s.pc.toNat (Config.memCells - s.pc.toNat)).map s.readCell

/-- The next step sees the byte `v`: the bytes from `pc` on begin with it, and the step is that of what they decode to,
or takes the fault of why they do not (rules R63, R111 to R113; takeFault's preciseness is decision D10, log 10). -/
def NextStepSees (aluExt : Bool) (v : Byte) (t : State) : Prop :=
  ∃ rest, codeFrom t = v :: rest ∧
    match decode aluExt (v :: rest) with
    | .ok (i, _) => stepWith aluExt t = exec i t
    | .error (.unknownOpcode ir) => ir = v ∧ stepWith aluExt t = .next (takeFault (.unknownInstruction v t.pc) t)
    | .error (.missingOperand ir) => ir = v ∧ stepWith aluExt t = .next (takeFault (.addressFault (.memAddr 256)) t)
    | .error .noOpcode => False

/-- The number of a byte sequence, the first byte least significant. -/
def wordOf : List Byte → Nat
  | [] => 0
  | b :: bs => b.toNat + 256 * wordOf bs

/-- The characters are the decimal numeral of a number: digits only, standing for the number with the most significant
first, and no leading zero but in `0` itself (rule R205). -/
def IsDecimalNumeral (cs : List Char) (n : Nat) : Prop :=
  (∀ ch ∈ cs, '0' ≤ ch ∧ ch ≤ '9') ∧
    cs.foldl (fun k ch => 10 * k + (ch.toNat - '0'.toNat)) 0 = n ∧ (cs.head? = some '0' → cs = ['0']) ∧ cs ≠ []

/-! Repetition. -/

/-- An instruction carried out `n` times, stopping at the first stop. -/
def execTimes (i : Instr) : Nat → State → Outcome
  | 0, s => .next s
  | n + 1, s =>
    match exec i s with
    | .next t => execTimes i n t
    | .fault f => .fault f
    | .refused r => .refused r

end Sys2Proof.Machine
end

