-- ==== Sys2Proof/Certificates/Slice0/Obligations.lean ====
section
/-! DEFINITION. The statements for the provers. A docstring names the rule a statement formalises, or, where it rests
on one of the spec's own decisions Dn, the decision and the log entry. -/

open Sys2Proof Sys2Proof.Machine

/-! Encoding. -/

/-- Words written out bit by bit from the spec's encodings decode to their instructions, with and without the
extension where the base group is concerned. Eight opcode values are the spec's decision D1 (log 2). -/
def Obligations.WrittenOutWordsDecode : Prop :=
  decode false [0b10000010, 0, 8] = .ok (.ldi 0 8, []) ∧
  decode false [0b10100000, 0, 1] = .ok (.add 0 1, []) ∧
  decode false [0b01000111, 0] = .ok (.prn 0, []) ∧
  decode false [0b00000001] = .ok (.hlt, []) ∧
  decode false [0b01010000, 1] = .ok (.call 1, []) ∧
  decode false [0b00010001] = .ok (.ret, []) ∧
  decode true [0b01101001, 2] = .ok (.not 2, []) ∧
  decode true [0b10100111, 0, 1] = .ok (.cmp 0 1, [])

/-- Decode and encode agree, in both directions: the bytes of an instruction the machine has decode to it, whatever
follows them and whatever its operand bytes are; and a byte sequence that decodes is the bytes of what it decodes to
(rules R80, R88, R94 with the opcode values of D1, log 2; operand bytes are kept raw, log 25). -/
def Obligations.DecodeInvertsEncode : Prop :=
  (∀ (aluExt : Bool) (i : Instr) (rest : List Byte), i.presentIn aluExt = true →
    decode aluExt (encode i ++ rest) = .ok (i, rest)) ∧
  (∀ (aluExt : Bool) (bytes rest : List Byte) (i : Instr), decode aluExt bytes = .ok (i, rest) →
    bytes = encode i ++ rest ∧ i.presentIn aluExt = true)

/-- The decoder reads every instruction back from its table word, the first byte least significant, at its own length.
`decodeTableWord` decodes with `ALU_EXT` true, the model's choice (log 1): for AND, OR, XOR, NOT and CMP the statement
holds by it; the layout of a table word in bytes is the model's interface (log 19). -/
def Obligations.TableWordDecodesToItsInstruction : Prop :=
  ∀ i : Instr, decodeTableWord (8 * (encode i).length) (wordOf (encode i)) = some i

/-- Bits 7:6 of an instruction's first byte are the number of its operand bytes, and bit 4 is set exactly in CALL
and RET (rule R87, which the spec derives from R81 and R86; thirteen opcode values are decision D1, log 2). -/
def Obligations.OpcodeBitsGiveLengthAndPcSetting : Prop :=
  ∀ i : Instr, ∃ op operands, encode i = op :: operands ∧ operands.length = operandCount op ∧
    (setsPc op = true ↔ (i = .ret ∨ ∃ a, i = .call a))

/-- Rule R89: every byte that is no opcode is unknown, 244 of them without the extension and 239 with it, 0 and 0xFF
among them; fetching one faults with `UnknownInstruction`, at its address, and never skips it. -/
def Obligations.UnknownOpcodesFault : Prop :=
  (∀ (aluExt : Bool) (b : Byte), decodeOpcode aluExt b = none ↔
    ∀ k : Opcode, (aluExt || !k.needsAluExt) = true → k.toByte ≠ b) ∧
  (((List.range 256).map (BitVec.ofNat 8)).filter fun b => (decodeOpcode false b).isNone).length = 244 ∧
  (((List.range 256).map (BitVec.ofNat 8)).filter fun b => (decodeOpcode true b).isNone).length = 239 ∧
  (∀ b : Byte, b = 0xA8 ∨ b = 0xAA ∨ b = 0xAB ∨ b = 0x69 ∨ b = 0xA7 → decodeOpcode false b = none) ∧
  (∀ aluExt : Bool, decodeOpcode aluExt 0 = none ∧ decodeOpcode aluExt 0b11111111 = none) ∧
  (∀ (aluExt : Bool) (s : State), s.run = .running → s.pc.toNat < 256 →
    decodeOpcode aluExt (s.readCell s.pc.toNat) = none →
    ∃ t, stepWith aluExt s = .next t ∧ FaultedWith (.unknownInstruction (s.readCell s.pc.toNat) s.pc) s t)

/-- Without the extension the five opcodes are unknown and fault with `UnknownInstruction`, and no step changes the
flags field; with it each is defined as its instruction; and on every other opcode byte the two machines step alike
(rule R166; the parameter and the five values are decisions D1 and D3, logs 1, 2). That there is a flags field at all
without the extension, where the rule gives the machine none, is the model's choice (log 21). -/
def Obligations.ExtensionGatesItsFiveOpcodesOnly : Prop :=
  (∀ b : Byte, b = 0xA8 ∨ b = 0xAA ∨ b = 0xAB ∨ b = 0x69 ∨ b = 0xA7 →
    decodeOpcode false b = none ∧ (decodeOpcode true b).isSome = true ∧
    ∀ s : State, s.run = .running → s.pc.toNat < 256 → s.readCell s.pc.toNat = b →
      ∃ t, stepWith false s = .next t ∧ FaultedWith (.unknownInstruction b s.pc) s t) ∧
  (∀ s : State,
    (s.pc.toNat < 256 → s.readCell s.pc.toNat ∉ ([0xA8, 0xAA, 0xAB, 0x69, 0xA7] : List Byte)) →
    stepWith false s = stepWith true s) ∧
  (∀ s t : State, stepWith false s = .next t → t.fl = s.fl) ∧
  (decodeOpcode true 0xA8 = some .and ∧ decodeOpcode true 0xAA = some .or ∧ decodeOpcode true 0xAB = some .xor ∧
    decodeOpcode true 0x69 = some .not ∧ decodeOpcode true 0xA7 = some .cmp)

/-! The step. -/

/-- A step runs the decoded instruction: where the bytes from `pc` on decode to an instruction, the step of a running
machine is that instruction's `exec`; nothing is added around it, since `exec` holds the advance (rule R110). `step` is
the step with `ALU_EXT` true, the model's choice (log 1). -/
def Obligations.StepRunsTheDecodedInstruction : Prop :=
  (∀ (s : State) (i : Instr) (rest : List Byte), s.run = .running →
    decode Config.aluExt (codeFrom s) = .ok (i, rest) → step s = exec i s) ∧
  (∀ (aluExt : Bool) (s : State) (i : Instr) (rest : List Byte), s.run = .running →
    decode aluExt (codeFrom s) = .ok (i, rest) → stepWith aluExt s = exec i s)

/-- Where the bytes from `pc` on do not decode, the step takes the fault of the first phase that fails: the fetch
past the last cell, the unknown opcode, or the operand read at 256, and nothing but `run`, `cause` and the trace
changes. Order, width and preciseness are the spec's decisions D6, D10, D11 (logs 6, 10, 11). -/
def Obligations.StepFaultsWhereNothingDecodes : Prop :=
  ∀ (aluExt : Bool) (s : State), s.run = .running → s.pc.toNat ≤ 256 →
    (decode aluExt (codeFrom s) = .error .noOpcode →
      s.pc.toNat = 256 ∧ stepWith aluExt s = .next (takeFault (.addressFault (.memAddr 256)) s)) ∧
    (∀ ir, decode aluExt (codeFrom s) = .error (.unknownOpcode ir) →
      stepWith aluExt s = .next (takeFault (.unknownInstruction ir s.pc) s)) ∧
    (∀ ir, decode aluExt (codeFrom s) = .error (.missingOperand ir) →
      stepWith aluExt s = .next (takeFault (.addressFault (.memAddr 256)) s))

/-- A step of a running core always has a next state, which is running, halted or faulted: no instruction stops the
model (rule R118, which the spec derives). -/
def Obligations.RunningCoreAlwaysSteps : Prop :=
  ∀ (aluExt : Bool) (s : State), s.run = .running →
    ∃ t, stepWith aluExt s = .next t ∧ (t.run = .running ∨ t.run = .halted ∨ t.run = .faulted)

/-- The run state starts as `PreRun` and leaves it only when the host invokes `run()`; the core takes steps
only in `Running`; a step leaves `Running` for `Halted` exactly when it executes HLT, and for `Faulted` exactly when
it takes a fault; no instruction but HLT writes the run state, other than by faulting, and none reads it (rule R27). That
a fault taken leaves the rest of the state as it was is the spec's decision D10 (log 10). -/
def Obligations.RunStateTransitions : Prop :=
  State.reset.run = .preRun ∧
  (∀ s : State, s.run = .preRun → hostStart s = .ok { s with run := .running } ∧
    ∀ bytes origin t, hostLoad bytes s origin = .ok t → t.run = .preRun) ∧
  (∀ (aluExt : Bool) (s : State), s.run ≠ .running → ∃ f, stepWith aluExt s = .fault f) ∧
  (∀ (aluExt : Bool) (s t : State), stepWith aluExt s = .next t →
    s.run = .running ∧ t.run ≠ .preRun ∧
    (t.run = .halted ↔ fetch aluExt s = .ok .hlt) ∧
    (t.run = .faulted ↔ ∃ c, t = takeFault c s)) ∧
  (∀ (i : Instr) (s t : State), i ≠ .hlt → exec i s = .next t → t.run = s.run ∨ ∃ c, t = takeFault c s) ∧
  (∀ (i : Instr) (s t : State) (r : RunState), exec i s = .next t →
    ∃ u, exec i { s with run := r } = .next u ∧ { u with run := t.run } = t)

/-- After every instruction with `S = 0` that did not fault, HLT and a division by zero included, `pc` is
the old one plus 1 plus the operand count, with no reduction modulo 256; after CALL and RET it is what the
instruction wrote, with no advance added (rule R116). Which values those are is decision D2 for RET's stack pointer
(log 3) and D12 for a CALL of register 7, read after the push (log 12). -/
def Obligations.AdvanceFollowsOpcodeBits : Prop :=
  ∀ (i : Instr) (s t : State), s.run = .running → s.pc.toNat < 256 → exec i s = .next t → t.run ≠ .faulted →
    ∃ op operands, encode i = op :: operands ∧
      (setsPc op = false → t.pc.toNat = s.pc.toNat + 1 + operandCount op) ∧
      (setsPc op = true →
        (i = .ret ∧ t.pc.toNat = (s.readCell (s.readReg Config.sp).toNat).toNat) ∨
        (∃ (a : Byte) (ha : a.toNat < 8), i = .call a ∧ t.pc.toNat = (t.readReg (reg a ha)).toNat))

/-! Register operands. -/

/-- Rules R22 and R91: an operand byte of 8 to 255 used as a register index faults with `AddressFault(RegIndex, b)`,
no bit of it ignored; an instruction whose register operands are all below 8 raises no such fault, precise or not: its
trace is not that of before with such a fault appended. -/
def Obligations.RegisterIndexIsBoundsChecked : Prop :=
  (∀ (i : Instr) (s : State), i.operandsLegal = false →
    ∃ b ∈ i.regOperands, 8 ≤ b.toNat ∧
      ∃ t, exec i s = .next t ∧ FaultedWith (.addressFault (.regIndex b)) s t) ∧
  (∀ (i : Instr) (s t : State), i.operandsLegal = true → exec i s = .next t →
    ∀ b, t.trace ≠ s.trace ++ [.fault (.addressFault (.regIndex b))])

/-- The first register operand of 8 or more, `a` before `b`, is the one reported, whatever the registers hold and
before any other effect or fault of the instruction, and the fault is precise: the spec's decisions D10, D11
(logs 10, 11). -/
def Obligations.FirstIllegalOperandIsReported : Prop :=
  ∀ (i : Instr) (s : State) (b : Byte), i.regOperands.find? (fun b => decide (8 ≤ b.toNat)) = some b →
    exec i s = .next (takeFault (.addressFault (.regIndex b)) s)

/-! HLT, LDI, PRN. -/

/-- HLT is the byte 0x01; it sets the run state to `Halted` and advances `pc` by 1, even to 256, with no
flag, register, cell or event changed; no step is taken after it, the host can neither load nor run again, and a
step ends in `Halted` only by executing it (rule R130). What the host may do in `Halted` is the spec's decision D18
(log 18). -/
def Obligations.HltEndsTheRun : Prop :=
  encode .hlt = [0b00000001] ∧
  (∀ s : State, ∃ t, exec .hlt s = .next t ∧ t.run = .halted ∧ t.pc = s.pc + 1 ∧ SameRegistersBut [] s t ∧
    SameMemory s t ∧ t.trace = s.trace ∧ t.fl = s.fl ∧ t.cause = s.cause) ∧
  (∀ s : State, s.pc.toNat = 255 → ∃ t, exec .hlt s = .next t ∧ t.pc.toNat = 256 ∧ t.run = .halted) ∧
  (∀ (aluExt : Bool) (s : State), s.run = .halted →
    stepWith aluExt s = .fault .afterHalt ∧ (∀ bytes origin, hostLoad bytes s origin = .error .wrongRunState) ∧
    hostStart s = .error .wrongRunState ∧ hostReset s = .ok State.reset) ∧
  (∀ (aluExt : Bool) (s t : State), stepWith aluExt s = .next t → t.run = .halted → fetch aluExt s = .ok .hlt)

/-- Rule R131: LDI is the bytes 0x82, a, b; with `a` below 8 it writes the raw byte `b` to `x[a]`, whatever `a`
(the stack pointer included) and `b`, changes nothing else and advances by 3; with `a` of 8 or more it faults with
the register index; at address 254 or 255 its operand read faults; and PRN of the same register then prints `b`. -/
def Obligations.LdiLoadsTheImmediate : Prop :=
  (∀ a b : Byte, encode (.ldi a b) = [0b10000010, a, b]) ∧
  (∀ (a b : Byte) (s : State) (ha : a.toNat < 8),
    ∃ t, exec (.ldi a b) s = .next t ∧ WritesRegister s t (reg a ha) b 3 ∧
      ∃ u, exec (.prn a) t = .next u ∧ u.trace = s.trace ++ [.print b]) ∧
  (∀ (a b : Byte) (s : State), 8 ≤ a.toNat →
    ∃ t, exec (.ldi a b) s = .next t ∧ FaultedWith (.addressFault (.regIndex a)) s t) ∧
  (∀ (aluExt : Bool) (s : State), s.run = .running → s.pc.toNat = 254 ∨ s.pc.toNat = 255 →
    s.readCell s.pc.toNat = 0b10000010 →
    ∃ t, stepWith aluExt s = .next t ∧ FaultedWith (.addressFault (.memAddr 256)) s t)

/-- PRN is the bytes 0x47, a; with `a` below 8 it appends `Print(x[a])` to the trace, changes nothing else
and advances by 2; with `a` of 8 or more it faults with the register index; at address 255 its operand read faults.
The host's line for the event is the decimal numeral of the value and a line end (rule R132). Decimal is decision D14;
the newline character as line end is the model's choice (log 14). -/
def Obligations.PrnEmitsTheRegister : Prop :=
  (∀ a : Byte, encode (.prn a) = [0b01000111, a]) ∧
  (∀ (a : Byte) (s : State) (ha : a.toNat < 8),
    ∃ t, exec (.prn a) s = .next t ∧ WritesTrace s t (s.trace ++ [.print (s.readReg (reg a ha))]) 2 ∧
      ∃ cs, IsDecimalNumeral cs (s.readReg (reg a ha)).toNat ∧
        consoleOutput t.trace = consoleOutput s.trace ++ cs ++ ['\n']) ∧
  (∀ (a : Byte) (s : State), 8 ≤ a.toNat →
    ∃ t, exec (.prn a) s = .next t ∧ FaultedWith (.addressFault (.regIndex a)) s t) ∧
  (∀ (aluExt : Bool) (s : State), s.run = .running → s.pc.toNat = 255 → s.readCell s.pc.toNat = 0b01000111 →
    ∃ t, stepWith aluExt s = .next t ∧ FaultedWith (.addressFault (.memAddr 256)) s t)

/-! The ALU. -/

/-- MUL, ADD and SUB write the exact unsigned result modulo 256 to `x[a]`, change nothing else, flags included, and
advance by 3, also where `a = b` and where either is the stack pointer (rules R140, R141, R142). The reduction modulo
256 is the spec's decision D4 (log 4). -/
def Obligations.ArithmeticIsExactModulo256 : Prop :=
  ∀ (a b : Byte) (s : State) (ha : a.toNat < 8) (hb : b.toNat < 8),
    (∃ t v, exec (.mul a b) s = .next t ∧ WritesRegister s t (reg a ha) v 3 ∧
      v.toNat = (s.readReg (reg a ha)).toNat * (s.readReg (reg b hb)).toNat % 256) ∧
    (∃ t v, exec (.add a b) s = .next t ∧ WritesRegister s t (reg a ha) v 3 ∧
      v.toNat = ((s.readReg (reg a ha)).toNat + (s.readReg (reg b hb)).toNat) % 256) ∧
    (∃ t v, exec (.sub a b) s = .next t ∧ WritesRegister s t (reg a ha) v 3 ∧
      (v.toNat : Int) = ((s.readReg (reg a ha)).toNat - (s.readReg (reg b hb)).toNat : Int) % 256)

/-- With a non-zero divisor DIV writes the unsigned quotient and MOD the unsigned remainder of the same division to
`x[a]`, change nothing else and advance by 3 (rules R144, R145). Unsigned and rounded toward zero is the spec's
decision D5 (log 5). -/
def Obligations.DivisionGivesQuotientAndRemainder : Prop :=
  ∀ (a b : Byte) (s : State) (ha : a.toNat < 8) (hb : b.toNat < 8), s.readReg (reg b hb) ≠ 0 →
    ∃ t u q r, exec (.div a b) s = .next t ∧ WritesRegister s t (reg a ha) q 3 ∧
      exec (.mod a b) s = .next u ∧ WritesRegister s u (reg a ha) r 3 ∧
      (s.readReg (reg a ha)).toNat = q.toNat * (s.readReg (reg b hb)).toNat + r.toNat ∧
      r.toNat < (s.readReg (reg b hb)).toNat

/-- Rule R223: division and modulo by zero are no fault. The instruction reports the condition as one event, writes no
register, leaves the run state and the cause as they were, and advances. Which fields the event has is the spec's
decision D15 (log 15) and is left open here. -/
def Obligations.DivisionByZeroIsNoFault : Prop :=
  ∀ (a b : Byte) (s : State), a.toNat < 8 → ∀ hb : b.toNat < 8, s.readReg (reg b hb) = 0 →
    (∃ t p, exec (.div a b) s = .next t ∧ WritesTrace s t (s.trace ++ [.divideByZero .div p]) 3) ∧
    (∃ t p, exec (.mod a b) s = .next t ∧ WritesTrace s t (s.trace ++ [.divideByZero .mod p]) 3)

/-- The division-by-zero event carries the address of the instruction's opcode, as a step finds it (rule R147, fields
of decision D15, log 15). -/
def Obligations.DivisionByZeroReportsItsAddress : Prop :=
  ∀ (aluExt : Bool) (s t : State) (op : DivOp) (p : Pc), stepWith aluExt s = .next t →
    t.trace = s.trace ++ [.divideByZero op p] →
    p = s.pc ∧ ∃ a b, fetch aluExt s = .ok (match op with | .div => .div a b | .mod => .mod a b)

/-- AND, OR and XOR write the bitwise result to `x[a]`, NOT writes 255 minus `x[a]`; nothing else changes, `FL`
included (rules R160 to R164, whose content the spec supplies from general knowledge, log 22). -/
def Obligations.BitwiseOperationsActBitByBit : Prop :=
  (∀ (a b : Byte) (s : State) (ha : a.toNat < 8) (hb : b.toNat < 8),
    (∃ t v, exec (.and a b) s = .next t ∧ WritesRegister s t (reg a ha) v 3 ∧
      ∀ k, v.getLsbD k = ((s.readReg (reg a ha)).getLsbD k && (s.readReg (reg b hb)).getLsbD k)) ∧
    (∃ t v, exec (.or a b) s = .next t ∧ WritesRegister s t (reg a ha) v 3 ∧
      ∀ k, v.getLsbD k = ((s.readReg (reg a ha)).getLsbD k || (s.readReg (reg b hb)).getLsbD k)) ∧
    (∃ t v, exec (.xor a b) s = .next t ∧ WritesRegister s t (reg a ha) v 3 ∧
      ∀ k, v.getLsbD k = ((s.readReg (reg a ha)).getLsbD k ^^ (s.readReg (reg b hb)).getLsbD k))) ∧
  (∀ (a : Byte) (s : State) (ha : a.toNat < 8),
    ∃ t v, exec (.not a) s = .next t ∧ WritesRegister s t (reg a ha) v 2 ∧
      v.toNat = 255 - (s.readReg (reg a ha)).toNat)

/-- CMP writes `FL` as `00000LGE` by unsigned comparison, exactly one of the three bits set, and changes nothing else
but `pc` (rule R165; the layout is general knowledge, decision D21, log 21). -/
def Obligations.CmpSetsExactlyOneFlag : Prop :=
  ∀ (a b : Byte) (s : State) (ha : a.toNat < 8) (hb : b.toNat < 8),
    ∃ t, exec (.cmp a b) s = .next t ∧
      (flagL t.fl = true ↔ (s.readReg (reg a ha)).toNat < (s.readReg (reg b hb)).toNat) ∧
      (flagG t.fl = true ↔ (s.readReg (reg b hb)).toNat < (s.readReg (reg a ha)).toNat) ∧
      (flagE t.fl = true ↔ s.readReg (reg a ha) = s.readReg (reg b hb)) ∧
      (t.fl = 4 ∨ t.fl = 2 ∨ t.fl = 1) ∧
      SameRegistersBut [] s t ∧ SameMemory s t ∧ t.trace = s.trace ∧ t.run = s.run ∧ t.cause = s.cause ∧
      t.pc = s.pc + 3

/-! The stack and calls. -/

/-- PUSH with a non-zero stack pointer decrements it and stores the register at the new top, the decremented pointer
itself where the operand is register 7; no other cell or register changes (rules R180, R184; decisions D2, D12,
logs 3, 12). -/
def Obligations.PushStoresBelowTheStackPointer : Prop :=
  ∀ (a : Byte) (s : State) (ha : a.toNat < 8), s.readReg Config.sp ≠ 0 →
    ∃ t addr, exec (.push a) s = .next t ∧ storeAddr (.push a) s = some addr ∧
      addr = (s.readReg Config.sp).toNat - 1 ∧ ((t.readReg Config.sp).toNat : Int) = addr ∧
      ((t.readCell addr.toNat).toNat : Int) =
        (if reg a ha = Config.sp then addr else (s.readReg (reg a ha)).toNat) ∧
      SameMemoryBut addr s t ∧ SameRegistersBut [Config.sp] s t ∧ SameControl s t ∧ t.trace = s.trace ∧
      t.pc = s.pc + 2

/-- POP loads the top cell into the register, then increments the stack pointer modulo 256, which for register 7 is the
loaded value plus 1; memory is unchanged (rules R181, R185; decisions D2, D7, D12, logs 3, 7, 12). -/
def Obligations.PopLoadsTheTopOfStack : Prop :=
  ∀ (a : Byte) (s : State) (ha : a.toNat < 8),
    ∃ t v, exec (.pop a) s = .next t ∧ v = s.readCell (s.readReg Config.sp).toNat ∧
      (reg a ha ≠ Config.sp → t.readReg (reg a ha) = v ∧
        (t.readReg Config.sp).toNat = ((s.readReg Config.sp).toNat + 1) % 256) ∧
      (reg a ha = Config.sp → (t.readReg Config.sp).toNat = (v.toNat + 1) % 256) ∧
      SameRegistersBut [reg a ha, Config.sp] s t ∧ SameMemory s t ∧ SameControl s t ∧ t.trace = s.trace ∧
      t.pc = s.pc + 2

/-- CALL with a non-zero stack pointer pushes `(pc + 2) mod 256` and jumps to the register's value, read after the
push; no other cell or register changes (rule R182; decisions D2, D8, D12, logs 3, 8, 12). -/
def Obligations.CallPushesTheReturnAddress : Prop :=
  ∀ (a : Byte) (s : State) (ha : a.toNat < 8), s.readReg Config.sp ≠ 0 →
    ∃ t addr, exec (.call a) s = .next t ∧ storeAddr (.call a) s = some addr ∧
      addr = (s.readReg Config.sp).toNat - 1 ∧ ((t.readReg Config.sp).toNat : Int) = addr ∧
      (t.readCell addr.toNat).toNat = (s.pc.toNat + 2) % 256 ∧
      (t.pc.toNat : Int) = (if reg a ha = Config.sp then addr else (s.readReg (reg a ha)).toNat) ∧
      SameMemoryBut addr s t ∧ SameRegistersBut [Config.sp] s t ∧ SameControl s t ∧ t.trace = s.trace

/-- RET jumps to the byte at the top of the stack and increments the stack pointer modulo 256; it never faults and
changes nothing else (rules R183, R185; decisions D2, D7, logs 3, 7). -/
def Obligations.RetJumpsToTheTopOfStack : Prop :=
  ∀ s : State, ∃ t, exec .ret s = .next t ∧
    t.pc.toNat = (s.readCell (s.readReg Config.sp).toNat).toNat ∧
    (t.readReg Config.sp).toNat = ((s.readReg Config.sp).toNat + 1) % 256 ∧
    SameRegistersBut [Config.sp] s t ∧ SameMemory s t ∧ SameControl s t ∧ t.trace = s.trace

/-- PUSH and CALL with a stack pointer of 0 fault with the address -1, precisely: the pointer does not wrap and nothing
is stored (rule R185; decisions D7, D10, logs 7, 10). -/
def Obligations.StackPointerDoesNotWrapDown : Prop :=
  ∀ (a : Byte) (s : State), a.toNat < 8 → s.readReg Config.sp = 0 →
    exec (.push a) s = .next (takeFault (.addressFault (.memAddr (-1))) s) ∧
    exec (.call a) s = .next (takeFault (.addressFault (.memAddr (-1))) s)

/-- PUSH then POP of the same register restores every register, the stack pointer included, for every operand
register (the property rule R181 quotes; for register 7 through the order of effects of D12, log 12). -/
def Obligations.PushThenPopRestoresRegisters : Prop :=
  ∀ (a : Byte) (s : State), a.toNat < 8 → s.readReg Config.sp ≠ 0 →
    ∃ t u, exec (.push a) s = .next t ∧ exec (.pop a) t = .next u ∧ (∀ r, u.readReg r = s.readReg r) ∧
      SameMemoryBut (stackPushAddr s) s u ∧ u.pc = s.pc + 4

/-- A subroutine that leaves the stack pointer and its return cell as CALL left them returns, by RET, to the address
after the CALL, with the stack pointer of before it (the property rule R183 quotes; register 7 is decision D2, log 3). -/
def Obligations.CallThenRetResumes : Prop :=
  ∀ (a : Byte) (s : State), a.toNat < 8 → s.readReg Config.sp ≠ 0 → s.pc.toNat + 2 < 256 →
    ∃ t, exec (.call a) s = .next t ∧
      ∀ u : State, u.readReg Config.sp = t.readReg Config.sp →
        u.readCell (t.readReg Config.sp).toNat = t.readCell (t.readReg Config.sp).toNat →
        ∃ w, exec .ret u = .next w ∧ w.pc.toNat = s.pc.toNat + 2 ∧
          w.readReg Config.sp = s.readReg Config.sp

/-- From the stack pointer's reset value 244 pushes complete, the k-th storing at 0xF4 - k, and the 245th faults
(rule R186, which the spec derives; decisions D2, D7, D12, logs 3, 7, 12). -/
def Obligations.StackHoldsExactly244Pushes : Prop :=
  ∀ (a : Byte) (s : State), a.toNat < 8 → s.readReg Config.sp = Config.spReset → s.run ≠ .faulted →
    (∀ n, n ≤ 244 → ∃ t, execTimes (.push a) n s = .next t ∧ (t.readReg Config.sp).toNat = 244 - n ∧
      t.run = s.run ∧
      ∀ k, k < n → t.readCell (243 - k) =
        (if h : a.toNat < 7 then s.readReg ⟨a.toNat, by omega⟩ else BitVec.ofNat 8 (243 - k))) ∧
    (∃ t, execTimes (.push a) 245 s = .next t ∧ t.run = .faulted ∧ t.readReg Config.sp = 0 ∧
      t.cause = some (.addressFault (.memAddr (-1))))

/-- The byte that PUSH or CALL stores, whichever it is, is what the next step decodes where `pc` then points at it: the
instruction it begins, or the fault of an unknown opcode or of a missing operand byte (rules R63, R66, which the spec
derives). Order and preciseness of the faults are decisions D6, D10, D11 (logs 6, 10, 11), the stored bytes D2, D8, D12
(logs 3, 8, 12). -/
def Obligations.StoredByteIsFetchedNext : Prop :=
  (∀ (aluExt : Bool) (a v : Byte) (s t : State) (ha : a.toNat < 8), s.run = .running →
    exec (.push a) s = .next t → t.run = .running → (t.pc.toNat : Int) = stackPushAddr s →
    v = (if reg a ha = Config.sp then s.readReg Config.sp - 1 else s.readReg (reg a ha)) →
    NextStepSees aluExt v t) ∧
  (∀ (aluExt : Bool) (a v : Byte) (s t : State), s.run = .running →
    exec (.call a) s = .next t → t.run = .running → (t.pc.toNat : Int) = stackPushAddr s →
    v.toNat = (s.pc.toNat + 2) % 256 → NextStepSees aluExt v t)

/-! Memory. -/

/-- Rules R52 and R53: both primitives check the exact address and raise with it out of `[0, 256)`; in range a read
gives the cell's content, and a write changes that one cell and nothing else. -/
def Obligations.MemoryPrimitivesAreBoundsChecked : Prop :=
  (∀ (addr : Int) (v : Byte) (s : State), addr < 0 ∨ 256 ≤ addr →
    memRead addr s = .error (.addressFault (.memAddr addr)) ∧
    memWrite addr v s = .error (.addressFault (.memAddr addr))) ∧
  (∀ (addr : Int) (v : Byte) (s : State), 0 ≤ addr → addr < 256 →
    memRead addr s = .ok (s.readCell addr.toNat) ∧
    ∃ t, memWrite addr v s = .ok t ∧ memRead addr t = .ok v ∧ SameMemoryBut addr s t ∧
      SameRegistersBut [] s t ∧ SameControl s t ∧ t.trace = s.trace ∧ t.pc = s.pc)

/-- Frame of memory: an instruction changes at most the byte at the address it stores to, and only PUSH and CALL
store (rules R37, R57; that a faulting one stores nothing is decision D10, log 10). -/
def Obligations.OnlyPushAndCallStore : Prop :=
  ∀ (i : Instr) (s t : State), exec i s = .next t →
    match storeAddr i s with
    | some addr => SameMemoryBut addr s t
    | none => SameMemory s t

/-! Frames of the other state. -/

/-- Frame of the registers: an instruction changes at most its destination register, and the stack pointer where it is
PUSH, POP, CALL or RET (rule R37; decision D2, log 3; that a faulting one changes none is D10, log 10). -/
def Obligations.OnlyDestinationRegistersChange : Prop :=
  ∀ (i : Instr) (s t : State) (r : RegNum), exec i s = .next t → writtenRegs i r = false →
    t.readReg r = s.readReg r

/-- Frame of the flags: CMP alone writes `FL`, and a completed CMP leaves one of three values (rules R29, R37; the
layout is decision D21, log 21). -/
def Obligations.OnlyCmpWritesFlags : Prop :=
  ∀ (i : Instr) (s t : State), exec i s = .next t →
    t.fl = s.fl ∨ ((∃ a b, i = .cmp a b) ∧ (t.fl = 1 ∨ t.fl = 2 ∨ t.fl = 4))

/-- The trace only grows, by at most one event a step: a `Print` of PRN, a `DivideByZero` of DIV or MOD, or the `Fault`
of a fault taken (rule R31; one ordered list is decision D15, log 15). -/
def Obligations.TraceOnlyGrows : Prop :=
  ∀ (aluExt : Bool) (s t : State), stepWith aluExt s = .next t →
    t.trace = s.trace ∨
    (∃ v a, t.trace = s.trace ++ [.print v] ∧ fetch aluExt s = .ok (.prn a)) ∨
    (∃ p a b, t.trace = s.trace ++ [.divideByZero .div p] ∧ fetch aluExt s = .ok (.div a b)) ∨
    (∃ p a b, t.trace = s.trace ++ [.divideByZero .mod p] ∧ fetch aluExt s = .ok (.mod a b)) ∨
    (∃ c, t.trace = s.trace ++ [.fault c] ∧ t.run = .faulted ∧ t.cause = some c)

/-- No instruction reads `FL`, the run state, the cause or the trace: two states that agree on registers, `pc` and
memory step alike on those three, and append the same events (rules R27, R28, R29, R31). -/
def Obligations.HiddenStateIsNeverRead : Prop :=
  ∀ (aluExt : Bool) (s s' t : State), s'.x = s.x → s'.pc = s.pc → s'.mem = s.mem → s.run = s'.run →
    stepWith aluExt s = .next t →
    ∃ t' es, stepWith aluExt s' = .next t' ∧ t'.x = t.x ∧ t'.pc = t.pc ∧ t'.mem = t.mem ∧ t'.run = t.run ∧
      t.trace = s.trace ++ es ∧ t'.trace = s'.trace ++ es

/-! Faults. -/

/-- A step that faults changes nothing but `run`, `cause` and the trace (rule R225; preciseness is decision D10,
log 10). -/
def Obligations.FaultsArePrecise : Prop :=
  ∀ (aluExt : Bool) (s t : State), stepWith aluExt s = .next t → t.run = .faulted →
    OnlyFaultFieldsChanged s t

/-- Rule R226: a faulting step appends exactly one `Fault` event, of the cause it records, after every earlier event;
so a faulted machine's trace ends with a `Fault` event and a halted machine's has none, as every step keeps it. -/
def Obligations.EveryFaultIsReported : Prop :=
  (∀ (aluExt : Bool) (s t : State), stepWith aluExt s = .next t → t.run = .faulted →
    ∃ c, FaultedWith c s t) ∧
  (∀ (aluExt : Bool) (s t : State), FaultsReported s → stepWith aluExt s = .next t → FaultsReported t) ∧
  FaultsReported State.reset ∧
  (∀ s : State, FaultsReported s → s.run = .faulted → ∃ c es, s.trace = es ++ [.fault c]) ∧
  (∀ s : State, FaultsReported s → s.run = .halted → ∀ e ∈ s.trace, e.isFault = false)

/-- A fault is final: after it no step is taken and the host can neither load nor run; only a reset leaves `Faulted`
(rules R224, R228, R207; the reset is decision D18, log 18). -/
def Obligations.FaultedIsTerminal : Prop :=
  ∀ (aluExt : Bool) (t : State), t.run = .faulted →
    stepWith aluExt t = .fault .afterFault ∧ hostStart t = .error .wrongRunState ∧
    (∀ bytes origin, hostLoad bytes t origin = .error .wrongRunState) ∧ hostReset t = .ok State.reset ∧
    ∀ n, runLoop aluExt n t = t

/-! Invariants. -/

/-- Every step keeps the good states: canonical memory in 256 cells, `pc` at most 256, a legal `FL`, causes and events
that agree with the run state, and only causes the machine can produce (rules R25, R29, R30, R38, R220, R226). The canonical list is the model's choice
(log 24), and so is the flags field kept at 0 without the extension (log 21); that `pc` can be 256 is decision D6
(log 6), the causes are D9 (log 9), and `step` has `ALU_EXT` true (log 1). -/
def Obligations.EveryStepKeepsTheInvariant : Prop :=
  (∀ s t : State, GoodState Config.aluExt s → step s = .next t → GoodState Config.aluExt t) ∧
  (∀ (aluExt : Bool) (s t : State), GoodState aluExt s → stepWith aluExt s = .next t → GoodState aluExt t)

/-- However long a core runs from a good state, its state stays good and its trace keeps every event it had, in order,
at the front (rules R31, R118, R119). The loop under fuel is the model's choice (log 26), and so are a good state's
canonical memory (log 24) and its flags field kept at 0 without the extension (log 21). -/
def Obligations.RunsStayGoodAndKeepTheirTrace : Prop :=
  ∀ (aluExt : Bool) (n : Nat) (s : State), GoodState aluExt s →
    GoodState aluExt (runLoop aluExt n s) ∧ ∃ es, (runLoop aluExt n s).trace = s.trace ++ es

/-- The reset state is good, with and without the extension (rule R33; decisions D13 and D21, logs 13, 21). A good
state's canonical memory (log 24) and its flags field at 0 without the extension (log 21) are the model's choice. -/
def Obligations.ResetIsGood : Prop :=
  ∀ aluExt : Bool, GoodState aluExt State.reset

/-- The reset state is the table of rule R33. Zero in `x[0]` to `x[6]`, the empty cause and trace, and `FL` are the
spec's decisions D13 and D21 (logs 13, 21). -/
def Obligations.ResetStateIsTheTable : Prop :=
  (∀ a : Nat, State.reset.readCell a = 0) ∧ State.reset.readReg 7 = 0xF4 ∧
  (∀ r : RegNum, r ≠ 7 → State.reset.readReg r = 0) ∧ State.reset.pc = 0 ∧ State.reset.run = .preRun ∧
  State.reset.cause = none ∧ State.reset.trace = [] ∧ State.reset.fl = 0

/-- The host's operations keep the good states (rules R201 to R203; decisions D16, D17, D18, logs 16, 17, 18). A good
state's canonical memory (log 24) and its flags field at 0 without the extension (log 21) are the model's choice. -/
def Obligations.HostOperationsKeepTheInvariant : Prop :=
  ∀ (aluExt : Bool) (s t : State), GoodState aluExt s →
    (∀ bytes origin, hostLoad bytes s origin = .ok t → GoodState aluExt t) ∧
    (hostStart s = .ok t → GoodState aluExt t) ∧ (hostReset s = .ok t → GoodState aluExt t)

/-! The host interface. -/

/-- `load` in `PreRun` of an image that fits puts its bytes from the origin on, sets `pc` to the origin and changes
nothing else; an image that does not fit changes nothing (rule R202; `pc` and the refusal are decisions D16, D17,
logs 16, 17). -/
def Obligations.LoadPlacesTheImage : Prop :=
  ∀ (bytes : List Byte) (s : State) (origin : Int), s.run = .preRun →
    (0 ≤ origin → origin + bytes.length ≤ 256 →
      ∃ t, hostLoad bytes s origin = .ok t ∧ (t.pc.toNat : Int) = origin ∧
        (∀ (k : Nat) (h : k < bytes.length), t.readCell (origin.toNat + k) = bytes[k]) ∧
        (∀ a : Nat, (a : Int) < origin ∨ origin + bytes.length ≤ a → t.readCell a = s.readCell a) ∧
        SameRegistersBut [] s t ∧ SameControl s t ∧ t.trace = s.trace) ∧
    (origin < 0 ∨ 256 < origin + bytes.length → hostLoad bytes s origin = .error .imageDoesNotFit)

/-- `run()` is legal in `PreRun` alone, sets the run state to `Running`, and the core steps until the run
has ended, when it returns, after which more fuel changes nothing; it never returns exactly when the run never ends;
and it needs no image: fresh from reset it faults at once on the zero byte (rule R203). The loop under fuel, by which
"returns" and "never returns" are said here, is the model's choice (log 26). -/
def Obligations.RunStepsUntilTheEnd : Prop :=
  (∀ s : State, (s.run = .preRun → hostStart s = .ok { s with run := .running }) ∧
    (s.run ≠ .preRun → hostStart s = .error .wrongRunState)) ∧
  (∀ (aluExt : Bool) (n : Nat) (s u : State) (st : RunState × Option FaultCause),
    hostRun aluExt n s = .ok (some (u, st)) →
    s.run = .preRun ∧ (u.run = .halted ∨ u.run = .faulted) ∧ st = (u.run, u.cause) ∧
      u = runLoop aluExt n { s with run := .running } ∧
      ∀ k, hostRun aluExt (n + k) s = .ok (some (u, st))) ∧
  (∀ (aluExt : Bool) (s : State), s.run = .preRun →
    ((∀ n, hostRun aluExt n s = .ok none) ↔
      ∀ n, (runLoop aluExt n { s with run := .running }).run = .running)) ∧
  (∀ (aluExt : Bool) (n : Nat), ∃ u, hostRun aluExt (n + 1) State.reset =
    .ok (some (u, (.faulted, some (.unknownInstruction 0 0)))))

/-- Rule R204: the status of a run that has ended is (`Halted`, none) or (`Faulted`, the cause), when it began in a good
state. -/
def Obligations.RunReturnsItsStatus : Prop :=
  ∀ (aluExt : Bool) (n : Nat) (s u : State) (st : RunState × Option FaultCause), GoodState aluExt s →
    hostRun aluExt n s = .ok (some (u, st)) →
    st = (u.run, u.cause) ∧ (st = (.halted, none) ∨ ∃ c, st = (.faulted, some c) ∧ c.legal aluExt)

/-- What the host may do in each run state: `load` and `run()` in `PreRun` only, reset in every one but `Running`,
giving the reset state (rules R201, R207; decision D18, log 18). -/
def Obligations.HostOperationsByRunState : Prop :=
  ∀ s : State,
    (s.run ≠ .preRun → hostStart s = .error .wrongRunState ∧
      ∀ bytes origin, hostLoad bytes s origin = .error .wrongRunState) ∧
    (s.run = .running → hostReset s = .error .wrongRunState) ∧
    (s.run ≠ .running → hostReset s = .ok State.reset)

/-- The numeral of a byte is decimal digits that stand for its value, with no leading zero; a trace's standard output
is its `Print` events' lines in order (rule R205; decimal is decision D14, log 14). -/
def Obligations.ConsoleShowsDecimalLines : Prop :=
  (∀ v : Byte, IsDecimalNumeral (decimalNumeral v) v.toNat) ∧
  (∀ (es fs : List Event), consoleOutput (es ++ fs) = consoleOutput es ++ consoleOutput fs) ∧
  (∀ v : Byte, consoleOutput [.print v] = decimalNumeral v ++ ['\n']) ∧
  (∀ e : Event, (∀ v, e ≠ .print v) → consoleOutput [e] = [] ∧ diagnostics [e] = [e])
end

