-- ==== Sys2Proof/Laws/Memory.lean ====
section
/-! SUPPORT. Laws of the memory list: read after write, and the canonical form. -/

namespace Sys2Proof.Machine

@[simp] theorem Memory.read_nil (a : Nat) : Memory.read [] a = 0 := rfl

theorem Memory.read_cons (k : Nat) (v : Byte) (m : Memory) (a : Nat) :
    Memory.read ((k, v) :: m) a = if k = a then v else Memory.read m a := rfl

/-- An address that no cell lists reads as an unlisted one. -/
theorem Memory.read_of_not_listed (m : Memory) (a : Nat) (h : ∀ c ∈ m, c.1 ≠ a) :
    Memory.read m a = Config.unlistedCell := by
  induction m with
  | nil => rfl
  | cons c m ih =>
    obtain ⟨k, v⟩ := c
    rw [Memory.read_cons, if_neg (h (k, v) List.mem_cons_self)]
    exact ih fun c hc => h c (List.mem_cons_of_mem _ hc)

/-- Dropping the cells of another address changes no read. -/
theorem Memory.read_filter_other (m : Memory) {a b : Nat} (h : b ≠ a) :
    Memory.read (m.filter fun c => decide (c.1 ≠ a)) b = Memory.read m b := by
  induction m with
  | nil => rfl
  | cons c m ih =>
    obtain ⟨k, v⟩ := c
    by_cases hk : k = a
    · have hb : k ≠ b := fun e => h (e.symm.trans hk)
      simpa [List.filter_cons, hk, Memory.read_cons, Ne.symm h] using ih
    · simp only [List.filter_cons, ne_eq, hk, not_false_eq_true, decide_true, if_true,
        Memory.read_cons]
      split
      · rfl
      · simpa using ih

/-- Inserting a cell at an address that is not listed: it reads there, every other address reads as before. -/
theorem Memory.read_insert (m : Memory) (a b : Nat) (v : Byte) (h : ∀ c ∈ m, c.1 ≠ a) :
    Memory.read (Memory.insert a v m) b = if a = b then v else Memory.read m b := by
  induction m with
  | nil => rfl
  | cons c m ih =>
    obtain ⟨k, w⟩ := c
    have hk : k ≠ a := h (k, w) List.mem_cons_self
    have ih := ih fun c hc => h c (List.mem_cons_of_mem _ hc)
    rw [Memory.insert]
    split
    · rfl
    · rw [Memory.read_cons, ih, Memory.read_cons]
      by_cases hb : k = b
      · simp [hb, show a ≠ b from fun e => hk (hb.trans e.symm)]
      · simp [hb]

/-- A write reads back at its address and leaves every other address alone. -/
theorem Memory.read_write (m : Memory) (a b : Nat) (v : Byte) :
    Memory.read (Memory.write m a v) b = if a = b then v else Memory.read m b := by
  have hnl : ∀ c ∈ m.filter (fun c => decide (c.1 ≠ a)), c.1 ≠ a := by
    intro c hc
    simpa using (List.mem_filter.mp hc).2
  rw [Memory.write]
  split
  · rename_i hv
    by_cases hb : a = b
    · subst hb
      rw [if_pos rfl, hv]
      exact Memory.read_of_not_listed _ _ hnl
    · rw [if_neg hb]
      exact Memory.read_filter_other m (Ne.symm hb)
  · rw [Memory.read_insert _ _ _ _ hnl]
    by_cases hb : a = b
    · simp [hb]
    · rw [if_neg hb, if_neg hb, Memory.read_filter_other m (Ne.symm hb)]

/-- The cells of an insertion are the new one and the old ones. -/
theorem Memory.mem_insert (m : Memory) (a : Nat) (v : Byte) (c : Host.Cell) :
    c ∈ Memory.insert a v m ↔ c = (a, v) ∨ c ∈ m := by
  induction m with
  | nil => simp [Memory.insert]
  | cons d m ih =>
    obtain ⟨k, w⟩ := d
    rw [Memory.insert]
    split
    · simp
    · simp only [List.mem_cons, ih]
      tauto

/-- Insertion keeps addresses strictly rising. -/
theorem Memory.insert_sorted (m : Memory) (a : Nat) (v : Byte)
    (hs : m.Pairwise fun c d => c.1 < d.1) (h : ∀ c ∈ m, c.1 ≠ a) :
    (Memory.insert a v m).Pairwise fun c d => c.1 < d.1 := by
  induction m with
  | nil => simp [Memory.insert]
  | cons d m ih =>
    obtain ⟨k, w⟩ := d
    obtain ⟨hk, hs'⟩ := List.pairwise_cons.mp hs
    have hka : k ≠ a := h (k, w) List.mem_cons_self
    rw [Memory.insert]
    split
    · rename_i hlt
      refine List.pairwise_cons.mpr ⟨?_, hs⟩
      intro c hc
      rcases List.mem_cons.mp hc with rfl | hc
      · exact hlt
      · exact hlt.trans (hk c hc)
    · rename_i hge
      refine List.pairwise_cons.mpr ⟨?_, ih hs' fun c hc => h c (List.mem_cons_of_mem _ hc)⟩
      intro c hc
      rcases (Memory.mem_insert m a v c).mp hc with rfl | hc
      · show k < a
        omega
      · exact hk c hc

theorem Memory.wf_nil : Memory.wf [] := by simp [Memory.wf]

/-- A write to a cell keeps the canonical form. -/
theorem Memory.wf_write {m : Memory} {a : Nat} (v : Byte) (hm : Memory.wf m) (ha : a < Config.memCells) :
    Memory.wf (Memory.write m a v) := by
  obtain ⟨hs, hc⟩ := hm
  have hs' : (m.filter fun c => decide (c.1 ≠ a)).Pairwise fun c d => c.1 < d.1 := hs.filter _
  have hc' : ∀ c ∈ m.filter (fun c => decide (c.1 ≠ a)), c.1 < Config.memCells ∧ c.2 ≠ Config.unlistedCell :=
    fun c h => hc c (List.mem_filter.mp h).1
  rw [Memory.write]
  split
  · exact ⟨hs', hc'⟩
  · rename_i hv
    refine ⟨Memory.insert_sorted _ _ _ hs' ?_, ?_⟩
    · intro c h
      simpa using (List.mem_filter.mp h).2
    · intro c h
      rcases (Memory.mem_insert _ _ _ _).mp h with rfl | h
      · exact ⟨ha, hv⟩
      · exact hc' c h

/-- Writing bytes one after the other: each reads back at its place, every other address reads as before. -/
theorem Memory.read_writeList (bs : List Byte) (m : Memory) (a b : Nat) :
    Memory.read (Memory.writeList m a bs) b =
      if h : a ≤ b ∧ b < a + bs.length then bs[b - a]'(by omega) else Memory.read m b := by
  induction bs generalizing m a with
  | nil => simp [Memory.writeList]
  | cons v vs ih =>
    rw [Memory.writeList, ih, Memory.read_write]
    by_cases h1 : a + 1 ≤ b ∧ b < a + 1 + vs.length
    · have h2 : a ≤ b ∧ b < a + (v :: vs).length := by simp only [List.length_cons]; omega
      have h3 : b - a = (b - (a + 1)) + 1 := by omega
      simp only [h1, h2, and_self, dif_pos, h3, List.getElem_cons_succ]
    · rw [dif_neg h1]
      by_cases hab : a = b
      · subst hab
        simp
      · have h2 : ¬(a ≤ b ∧ b < a + (v :: vs).length) := by simp only [List.length_cons]; omega
        rw [if_neg hab, dif_neg h2]

/-- Writing bytes that all fit keeps the canonical form. -/
theorem Memory.wf_writeList {bs : List Byte} {m : Memory} {a : Nat} (hm : Memory.wf m)
    (h : a + bs.length ≤ Config.memCells) : Memory.wf (Memory.writeList m a bs) := by
  induction bs generalizing m a with
  | nil => exact hm
  | cons v vs ih =>
    simp only [List.length_cons] at h
    exact ih (Memory.wf_write v hm (by omega)) (by omega)

end Sys2Proof.Machine
end

