-- ==== Sys2Proof/Laws/State.lean ====
section
/-! SUPPORT. One lemma per field per update of State, so that no later proof unfolds a record update. -/

namespace Sys2Proof.Machine

/-- Reduction modulo 256, as a number. -/
theorem toNat_narrow (n : Int) : (narrow n).toNat = (n % 256).toNat := by
  simp [narrow, BitVec.toNat_ofInt]

/-! `writeReg`. -/

theorem readReg_writeReg (s : State) (r q : RegNum) (v : Byte) :
    (s.writeReg r v).readReg q = if q = r then v else s.readReg q := by
  simp [State.readReg, State.writeReg, Vector.getElem_set, Fin.ext_iff, eq_comm]

@[simp] theorem readReg_writeReg_same (s : State) (r : RegNum) (v : Byte) :
    (s.writeReg r v).readReg r = v := by simp [readReg_writeReg]

@[simp] theorem writeReg_pc (s : State) (r : RegNum) (v : Byte) : (s.writeReg r v).pc = s.pc := rfl
@[simp] theorem writeReg_mem (s : State) (r : RegNum) (v : Byte) : (s.writeReg r v).mem = s.mem := rfl
@[simp] theorem writeReg_run (s : State) (r : RegNum) (v : Byte) : (s.writeReg r v).run = s.run := rfl
@[simp] theorem writeReg_cause (s : State) (r : RegNum) (v : Byte) : (s.writeReg r v).cause = s.cause := rfl
@[simp] theorem writeReg_trace (s : State) (r : RegNum) (v : Byte) : (s.writeReg r v).trace = s.trace := rfl
@[simp] theorem writeReg_fl (s : State) (r : RegNum) (v : Byte) : (s.writeReg r v).fl = s.fl := rfl
@[simp] theorem readCell_writeReg (s : State) (r : RegNum) (v : Byte) (a : Nat) :
    (s.writeReg r v).readCell a = s.readCell a := rfl

/-! `emit`. -/

@[simp] theorem emit_x (e : Event) (s : State) : (emit e s).x = s.x := rfl
@[simp] theorem emit_pc (e : Event) (s : State) : (emit e s).pc = s.pc := rfl
@[simp] theorem emit_mem (e : Event) (s : State) : (emit e s).mem = s.mem := rfl
@[simp] theorem emit_run (e : Event) (s : State) : (emit e s).run = s.run := rfl
@[simp] theorem emit_cause (e : Event) (s : State) : (emit e s).cause = s.cause := rfl
@[simp] theorem emit_trace (e : Event) (s : State) : (emit e s).trace = s.trace ++ [e] := rfl
@[simp] theorem emit_fl (e : Event) (s : State) : (emit e s).fl = s.fl := rfl
@[simp] theorem readReg_emit (e : Event) (s : State) (r : RegNum) : (emit e s).readReg r = s.readReg r := rfl
@[simp] theorem readCell_emit (e : Event) (s : State) (a : Nat) : (emit e s).readCell a = s.readCell a := rfl

/-! `takeFault`. -/

@[simp] theorem takeFault_x (c : FaultCause) (s : State) : (takeFault c s).x = s.x := rfl
@[simp] theorem takeFault_pc (c : FaultCause) (s : State) : (takeFault c s).pc = s.pc := rfl
@[simp] theorem takeFault_mem (c : FaultCause) (s : State) : (takeFault c s).mem = s.mem := rfl
@[simp] theorem takeFault_run (c : FaultCause) (s : State) : (takeFault c s).run = .faulted := rfl
@[simp] theorem takeFault_cause (c : FaultCause) (s : State) : (takeFault c s).cause = some c := rfl
@[simp] theorem takeFault_trace (c : FaultCause) (s : State) :
    (takeFault c s).trace = s.trace ++ [.fault c] := rfl
@[simp] theorem takeFault_fl (c : FaultCause) (s : State) : (takeFault c s).fl = s.fl := rfl
@[simp] theorem readReg_takeFault (c : FaultCause) (s : State) (r : RegNum) :
    (takeFault c s).readReg r = s.readReg r := rfl
@[simp] theorem readCell_takeFault (c : FaultCause) (s : State) (a : Nat) :
    (takeFault c s).readCell a = s.readCell a := rfl

/-! `advance`. -/

@[simp] theorem advance_x (k : Opcode) (s : State) : (advance k s).x = s.x := by
  rw [advance]; split <;> rfl
@[simp] theorem advance_mem (k : Opcode) (s : State) : (advance k s).mem = s.mem := by
  rw [advance]; split <;> rfl
@[simp] theorem advance_run (k : Opcode) (s : State) : (advance k s).run = s.run := by
  rw [advance]; split <;> rfl
@[simp] theorem advance_cause (k : Opcode) (s : State) : (advance k s).cause = s.cause := by
  rw [advance]; split <;> rfl
@[simp] theorem advance_trace (k : Opcode) (s : State) : (advance k s).trace = s.trace := by
  rw [advance]; split <;> rfl
@[simp] theorem advance_fl (k : Opcode) (s : State) : (advance k s).fl = s.fl := by
  rw [advance]; split <;> rfl
@[simp] theorem readReg_advance (k : Opcode) (s : State) (r : RegNum) :
    (advance k s).readReg r = s.readReg r := by
  rw [State.readReg, advance_x, State.readReg]
@[simp] theorem readCell_advance (k : Opcode) (s : State) (a : Nat) :
    (advance k s).readCell a = s.readCell a := by
  rw [State.readCell, advance_mem, State.readCell]

/-- The advance adds the length the opcode gives, or nothing where `S = 1`. -/
theorem advance_pc (k : Opcode) (s : State) :
    (advance k s).pc = if setsPc k.toByte then s.pc else s.pc + BitVec.ofNat 9 (1 + operandCount k.toByte) := by
  rw [advance]; split <;> rfl

/-! `incrementSp`. -/

@[simp] theorem incrementSp_pc (s : State) : (incrementSp s).pc = s.pc := rfl
@[simp] theorem incrementSp_mem (s : State) : (incrementSp s).mem = s.mem := rfl
@[simp] theorem incrementSp_run (s : State) : (incrementSp s).run = s.run := rfl
@[simp] theorem incrementSp_cause (s : State) : (incrementSp s).cause = s.cause := rfl
@[simp] theorem incrementSp_trace (s : State) : (incrementSp s).trace = s.trace := rfl
@[simp] theorem incrementSp_fl (s : State) : (incrementSp s).fl = s.fl := rfl
@[simp] theorem readCell_incrementSp (s : State) (a : Nat) : (incrementSp s).readCell a = s.readCell a := rfl

/-- The stack pointer is incremented modulo 256; no other register changes. -/
theorem readReg_incrementSp (s : State) (q : RegNum) :
    (incrementSp s).readReg q = if q = Config.sp then s.readReg Config.sp + 1 else s.readReg q := by
  rw [incrementSp, readReg_writeReg]
  split
  · apply BitVec.eq_of_toNat_eq
    rw [toNat_narrow, BitVec.toNat_add, show (1 : Byte).toNat = 1 from rfl]
    omega
  · rfl

/-! Single fields written: what is read through the accessors. -/

@[simp] theorem readReg_run (s : State) (v : RunState) (r : RegNum) :
    ({ s with run := v } : State).readReg r = s.readReg r := rfl
@[simp] theorem readReg_fl (s : State) (v : Byte) (r : RegNum) :
    ({ s with fl := v } : State).readReg r = s.readReg r := rfl
@[simp] theorem readReg_pc (s : State) (v : Pc) (r : RegNum) :
    ({ s with pc := v } : State).readReg r = s.readReg r := rfl
@[simp] theorem readReg_mem (s : State) (v : Memory) (r : RegNum) :
    ({ s with mem := v } : State).readReg r = s.readReg r := rfl
@[simp] theorem readCell_run (s : State) (v : RunState) (a : Nat) :
    ({ s with run := v } : State).readCell a = s.readCell a := rfl
@[simp] theorem readCell_fl (s : State) (v : Byte) (a : Nat) :
    ({ s with fl := v } : State).readCell a = s.readCell a := rfl
@[simp] theorem readCell_pc (s : State) (v : Pc) (a : Nat) :
    ({ s with pc := v } : State).readCell a = s.readCell a := rfl

end Sys2Proof.Machine
end

