-- ==== Sys2Proof/Laws/Ops.lean ====
section
/-! SUPPORT. What each shared operation can do, said once. -/

namespace Sys2Proof.Machine

/-! Register operands. -/

theorem regIndex_of_lt {b : Byte} (h : b.toNat < 8) : regIndex b = .ok (reg b h) := by
  simp [regIndex, h]

theorem regIndex_of_ge {b : Byte} (h : 8 ≤ b.toNat) : regIndex b = .error (.addressFault (.regIndex b)) := by
  simp [regIndex, Nat.not_lt.mpr h]

/-- A validated index is the operand byte's own value. -/
theorem regIndex_ok {b : Byte} {r : RegNum} (h : regIndex b = .ok r) : r.val = b.toNat := by
  unfold regIndex at h
  split at h
  · injection h with h; rw [← h]
  · cases h

/-- Naming a register by its own number. -/
@[simp] theorem regIndex_ofNat (r : RegNum) : regIndex (BitVec.ofNat 8 r.val) = .ok r := by
  revert r; decide

theorem regPair_of_lt {a b : Byte} (ha : a.toNat < 8) (hb : b.toNat < 8) :
    regPair a b = .ok ((reg a ha), (reg b hb)) := by
  simp [regPair, regIndex_of_lt, ha, hb, bind, Except.bind, pure, Except.pure]

theorem regPair_of_ge_left {a b : Byte} (h : 8 ≤ a.toNat) :
    regPair a b = .error (.addressFault (.regIndex a)) := by
  simp [regPair, regIndex_of_ge h, bind, Except.bind]

theorem regPair_of_ge_right {a b : Byte} (ha : a.toNat < 8) (h : 8 ≤ b.toNat) :
    regPair a b = .error (.addressFault (.regIndex b)) := by
  simp [regPair, regIndex_of_lt ha, regIndex_of_ge h, bind, Except.bind]

/-- Every way a pair of operands can validate or raise. -/
theorem regPair_cases (a b : Byte) :
    (∃ ha hb, regPair a b = .ok ((reg a ha), (reg b hb))) ∨
    (8 ≤ a.toNat ∧ regPair a b = .error (.addressFault (.regIndex a))) ∨
    (a.toNat < 8 ∧ 8 ≤ b.toNat ∧ regPair a b = .error (.addressFault (.regIndex b))) := by
  by_cases ha : a.toNat < 8
  · by_cases hb : b.toNat < 8
    · exact .inl ⟨ha, hb, regPair_of_lt ha hb⟩
    · exact .inr (.inr ⟨ha, by omega, regPair_of_ge_right ha (by omega)⟩)
  · exact .inr (.inl ⟨by omega, regPair_of_ge_left (by omega)⟩)

/-! Memory accesses. -/

theorem addrInRange_iff (addr : Int) : addrInRange addr = true ↔ 0 ≤ addr ∧ addr < 256 := by
  simp [addrInRange]

/-- The address of a byte's value is always in range. -/
theorem addrInRange_byte (v : Byte) : addrInRange (v.toNat : Int) = true := by
  rw [addrInRange_iff]
  omega

theorem memRead_of_inRange {addr : Int} (s : State) (h : 0 ≤ addr ∧ addr < 256) :
    memRead addr s = .ok (s.readCell addr.toNat) := by
  rw [memRead, if_pos ((addrInRange_iff addr).mpr h)]

theorem memRead_of_outOfRange {addr : Int} (s : State) (h : addr < 0 ∨ 256 ≤ addr) :
    memRead addr s = .error (.addressFault (.memAddr addr)) := by
  rw [memRead, if_neg]
  rw [addrInRange_iff]
  omega

theorem memWrite_of_inRange {addr : Int} (v : Byte) (s : State) (h : 0 ≤ addr ∧ addr < 256) :
    memWrite addr v s = .ok { s with mem := Memory.write s.mem addr.toNat v } := by
  rw [memWrite, if_pos ((addrInRange_iff addr).mpr h)]

theorem memWrite_of_outOfRange {addr : Int} (v : Byte) (s : State) (h : addr < 0 ∨ 256 ≤ addr) :
    memWrite addr v s = .error (.addressFault (.memAddr addr)) := by
  rw [memWrite, if_neg]
  rw [addrInRange_iff]
  omega

/-! The stack. -/

/-- The top of the stack can always be read. -/
theorem memRead_stackTop (s : State) :
    memRead (stackTop s) s = .ok (s.readCell (s.readReg Config.sp).toNat) := by
  rw [stackTop, memRead, if_pos (addrInRange_byte _), Int.toNat_natCast]

/-- A push with a non-zero stack pointer: the pointer goes down by one and the value lands there. -/
theorem pushValue_of_pos (v : State → Byte) {s : State} (h : s.readReg Config.sp ≠ 0) :
    pushValue v s = .ok
      { s.writeReg Config.sp (s.readReg Config.sp - 1) with
        mem := Memory.write s.mem ((s.readReg Config.sp).toNat - 1)
          (v (s.writeReg Config.sp (s.readReg Config.sp - 1))) } := by
  have hpos : 0 < (s.readReg Config.sp).toNat := by
    rcases Nat.eq_zero_or_pos (s.readReg Config.sp).toNat with h0 | h0
    · exact absurd (BitVec.eq_of_toNat_eq h0) h
    · exact h0
  have hlt : (s.readReg Config.sp).toNat < 256 := (s.readReg Config.sp).isLt
  have hn : narrow (stackPushAddr s) = s.readReg Config.sp - 1 := by
    apply BitVec.eq_of_toNat_eq
    rw [toNat_narrow, stackPushAddr, BitVec.toNat_sub, show (1 : Byte).toNat = 1 from rfl]
    omega
  have ha : (stackPushAddr s).toNat = (s.readReg Config.sp).toNat - 1 := by
    rw [stackPushAddr]; omega
  rw [pushValue, memWrite_of_inRange _ _ (by rw [stackPushAddr]; omega)]
  simp only [hn, ha, writeReg_mem]

/-- A push with the stack pointer at 0 raises the address -1. -/
theorem pushValue_of_zero (v : State → Byte) {s : State} (h : s.readReg Config.sp = 0) :
    pushValue v s = .error (.addressFault (.memAddr (-1))) := by
  have ha : stackPushAddr s = -1 := by simp [stackPushAddr, h]
  rw [pushValue, ha, memWrite_of_outOfRange _ _ (by omega)]

/-! The end of an instruction. -/

/-- How far each opcode's own bits advance `pc` (rules R87, R116). -/
def advanceOf : Opcode → Pc
  | .hlt => 1
  | .ldi => 3
  | .prn => 2
  | .mul => 3
  | .add => 3
  | .sub => 3
  | .div => 3
  | .mod => 3
  | .push => 2
  | .pop => 2
  | .call => 0
  | .ret => 0
  | .and => 3
  | .or => 3
  | .xor => 3
  | .not => 2
  | .cmp => 3

/-- The advance of each opcode, computed from its bits once. -/
theorem advance_pc_of (k : Opcode) (s : State) : (advance k s).pc = s.pc + advanceOf k := by
  rw [advance_pc]
  have h : ∀ k : Opcode, (if setsPc k.toByte then 0 else BitVec.ofNat 9 (1 + operandCount k.toByte)) = advanceOf k := by
    intro k; cases k <;> decide
  rw [← h k]
  split <;> simp

@[simp] theorem conclude_ok (k : Opcode) (s t : State) : conclude k s (.ok t) = .next (advance k t) := rfl
@[simp] theorem conclude_error (k : Opcode) (s : State) (c : FaultCause) :
    conclude k s (.error c) = .next (takeFault c s) := rfl

/-- Every way an instruction can end. -/
theorem conclude_cases {k : Opcode} {s u : State} {r : Except FaultCause State} (h : conclude k s r = .next u) :
    (∃ t, r = .ok t ∧ u = advance k t) ∨ (∃ c, r = .error c ∧ u = takeFault c s) := by
  cases r with
  | ok t => exact .inl ⟨t, rfl, by simpa using h.symm⟩
  | error c => exact .inr ⟨c, rfl, by simpa using h.symm⟩

/-! The register-to-register shapes. -/

theorem binaryOp_of_lt (f : Byte → Byte → Byte) {a b : Byte} (s : State) (ha : a.toNat < 8) (hb : b.toNat < 8) :
    binaryOp f a b s =
      .ok (s.writeReg (reg a ha) (f (s.readReg (reg a ha)) (s.readReg (reg b hb)))) := by
  simp [binaryOp, regPair_of_lt ha hb, bind, Except.bind, pure, Except.pure]

theorem divisionOp_of_lt (op : DivOp) (f : Byte → Byte → Byte) {a b : Byte} (s : State)
    (ha : a.toNat < 8) (hb : b.toNat < 8) :
    divisionOp op f a b s =
      .ok (if s.readReg (reg b hb) = 0 then emit (.divideByZero op s.pc) s
        else s.writeReg (reg a ha) (f (s.readReg (reg a ha)) (s.readReg (reg b hb)))) := by
  simp only [divisionOp, regPair_of_lt ha hb, bind, Except.bind, pure, Except.pure]
  split <;> rfl

end Sys2Proof.Machine
end

