-- ==== Sys2Proof/Laws/Step.lean ====
section
/-! SUPPORT. What an instruction and a step can do, said once. -/

namespace Sys2Proof.Machine

/-- Every instruction ends in `conclude` on its own opcode: it completes with the advance, or takes a fault in the
state it began in. -/
theorem exec_eq_conclude (i : Instr) (s : State) : ∃ k r, exec i s = conclude k s r := by
  cases i with
  | hlt => exact ⟨.hlt, _, execHlt.eq_1 s⟩
  | ldi a b => exact ⟨.ldi, _, execLdi.eq_1 a b s⟩
  | prn a => exact ⟨.prn, _, execPrn.eq_1 a s⟩
  | mul a b => exact ⟨.mul, _, execMul.eq_1 a b s⟩
  | add a b => exact ⟨.add, _, execAdd.eq_1 a b s⟩
  | sub a b => exact ⟨.sub, _, execSub.eq_1 a b s⟩
  | div a b => exact ⟨.div, _, execDiv.eq_1 a b s⟩
  | mod a b => exact ⟨.mod, _, execMod.eq_1 a b s⟩
  | push a => exact ⟨.push, _, execPush.eq_1 a s⟩
  | pop a => exact ⟨.pop, _, execPop.eq_1 a s⟩
  | call a => exact ⟨.call, _, execCall.eq_1 a s⟩
  | ret => exact ⟨.ret, _, execRet.eq_1 s⟩
  | and a b => exact ⟨.and, _, execAnd.eq_1 a b s⟩
  | or a b => exact ⟨.or, _, execOr.eq_1 a b s⟩
  | xor a b => exact ⟨.xor, _, execXor.eq_1 a b s⟩
  | not a => exact ⟨.not, _, execNot.eq_1 a s⟩
  | cmp a b => exact ⟨.cmp, _, execCmp.eq_1 a b s⟩

theorem stepWith_running {s : State} (aluExt : Bool) (h : s.run = .running) :
    stepWith aluExt s = runningStep aluExt s := by
  simp only [stepWith, h]

/-- The step of a running core is the fetched instruction's, or the fault the fetch raised. -/
theorem stepWith_of_fetch_ok {aluExt : Bool} {s : State} {i : Instr} (h : s.run = .running)
    (hf : fetch aluExt s = .ok i) : stepWith aluExt s = exec i s := by
  rw [stepWith_running aluExt h]
  unfold runningStep
  simp only [hf]

theorem stepWith_of_fetch_error {aluExt : Bool} {s : State} {c : FaultCause} (h : s.run = .running)
    (hf : fetch aluExt s = .error c) : stepWith aluExt s = .next (takeFault c s) := by
  rw [stepWith_running aluExt h]
  unfold runningStep
  simp only [hf]

/-- Every way a step can answer a next state. -/
theorem stepWith_next {aluExt : Bool} {s t : State} (h : stepWith aluExt s = .next t) :
    s.run = .running ∧
      ((∃ i, fetch aluExt s = .ok i ∧ exec i s = .next t) ∨
        (∃ c, fetch aluExt s = .error c ∧ t = takeFault c s)) := by
  cases hr : s.run with
  | preRun => simp only [stepWith, hr] at h; cases h
  | halted => simp only [stepWith, hr] at h; cases h
  | faulted => simp only [stepWith, hr] at h; cases h
  | running =>
    refine ⟨rfl, ?_⟩
    cases hf : fetch aluExt s with
    | ok i => exact .inl ⟨i, rfl, (stepWith_of_fetch_ok hr hf).symm.trans h⟩
    | error c =>
      have := (stepWith_of_fetch_error hr hf).symm.trans h
      injection this with this
      exact .inr ⟨c, rfl, this.symm⟩

/-- The opcode of a kind decodes to that kind where the machine has it. -/
theorem decodeOpcode_toByte (aluExt : Bool) (k : Opcode) (h : (aluExt || !k.needsAluExt) = true) :
    decodeOpcode aluExt k.toByte = some k := by
  revert h; cases aluExt <;> cases k <;> decide

/-- A byte that decodes is the opcode of the kind, and the machine has it. -/
theorem decodeOpcode_some {aluExt : Bool} {ir : Byte} {k : Opcode} (h : decodeOpcode aluExt ir = some k) :
    k.toByte = ir ∧ (aluExt || !k.needsAluExt) = true := by
  have := List.find?_some h
  simpa using this

end Sys2Proof.Machine
end

