-- ==== Sys2Proof/Laws/Exec.lean ====
section
/-! SUPPORT. What each instruction answers where its register operands are below 8, in the shared operations' terms: later
proofs cite these and unfold no meaning. -/

namespace Sys2Proof.Machine

/-- The next free cell takes `v` and the stack pointer points at it: what a push leaves before the advance. -/
def pushed (s : State) (v : Byte) : State :=
  { s.writeReg Config.sp (s.readReg Config.sp - 1) with
    mem := Memory.write s.mem ((s.readReg Config.sp).toNat - 1) v }

@[simp] theorem pushed_pc (s : State) (v : Byte) : (pushed s v).pc = s.pc := rfl
@[simp] theorem pushed_run (s : State) (v : Byte) : (pushed s v).run = s.run := rfl
@[simp] theorem pushed_cause (s : State) (v : Byte) : (pushed s v).cause = s.cause := rfl
@[simp] theorem pushed_trace (s : State) (v : Byte) : (pushed s v).trace = s.trace := rfl
@[simp] theorem pushed_fl (s : State) (v : Byte) : (pushed s v).fl = s.fl := rfl

/-- After a push the stack pointer is one lower, every other register is as before. -/
theorem readReg_pushed (s : State) (v : Byte) (r : RegNum) :
    (pushed s v).readReg r = if r = Config.sp then s.readReg Config.sp - 1 else s.readReg r :=
  readReg_writeReg s Config.sp r _

/-- After a push the cell below the old stack pointer holds the value, every other cell is as before. -/
theorem readCell_pushed (s : State) (v : Byte) (a : Nat) :
    (pushed s v).readCell a = if (s.readReg Config.sp).toNat - 1 = a then v else s.readCell a :=
  Memory.read_write s.mem _ a v

theorem exec_hlt (s : State) : exec .hlt s = .next (advance .hlt { s with run := .halted }) := rfl

theorem exec_ldi {a : Byte} (b : Byte) (s : State) (ha : a.toNat < 8) :
    exec (.ldi a b) s = .next (advance .ldi (s.writeReg (reg a ha) b)) := by
  simp [exec, execLdi, regIndex_of_lt ha, bind, Except.bind, pure, Except.pure]

theorem exec_prn {a : Byte} (s : State) (ha : a.toNat < 8) :
    exec (.prn a) s = .next (advance .prn (emit (.print (s.readReg (reg a ha))) s)) := by
  simp [exec, execPrn, regIndex_of_lt ha, bind, Except.bind, pure, Except.pure]

section
variable {a b : Byte} (s : State) (ha : a.toNat < 8) (hb : b.toNat < 8)

theorem exec_mul : exec (.mul a b) s = .next (advance .mul
    (s.writeReg (reg a ha) (aluMul (s.readReg (reg a ha)) (s.readReg (reg b hb))))) := by
  simp [exec, execMul, binaryOp_of_lt _ s ha hb]

theorem exec_add : exec (.add a b) s = .next (advance .add
    (s.writeReg (reg a ha) (aluAdd (s.readReg (reg a ha)) (s.readReg (reg b hb))))) := by
  simp [exec, execAdd, binaryOp_of_lt _ s ha hb]

theorem exec_sub : exec (.sub a b) s = .next (advance .sub
    (s.writeReg (reg a ha) (aluSub (s.readReg (reg a ha)) (s.readReg (reg b hb))))) := by
  simp [exec, execSub, binaryOp_of_lt _ s ha hb]

theorem exec_div : exec (.div a b) s = .next (advance .div
    (if s.readReg (reg b hb) = 0 then emit (.divideByZero .div s.pc) s
      else s.writeReg (reg a ha) (aluDiv (s.readReg (reg a ha)) (s.readReg (reg b hb))))) := by
  simp [exec, execDiv, divisionOp_of_lt _ _ s ha hb]

theorem exec_mod : exec (.mod a b) s = .next (advance .mod
    (if s.readReg (reg b hb) = 0 then emit (.divideByZero .mod s.pc) s
      else s.writeReg (reg a ha) (aluMod (s.readReg (reg a ha)) (s.readReg (reg b hb))))) := by
  simp [exec, execMod, divisionOp_of_lt _ _ s ha hb]

theorem exec_and : exec (.and a b) s = .next (advance .and
    (s.writeReg (reg a ha) (s.readReg (reg a ha) &&& s.readReg (reg b hb)))) := by
  simp [exec, execAnd, binaryOp_of_lt _ s ha hb]

theorem exec_or : exec (.or a b) s = .next (advance .or
    (s.writeReg (reg a ha) (s.readReg (reg a ha) ||| s.readReg (reg b hb)))) := by
  simp [exec, execOr, binaryOp_of_lt _ s ha hb]

theorem exec_xor : exec (.xor a b) s = .next (advance .xor
    (s.writeReg (reg a ha) (s.readReg (reg a ha) ^^^ s.readReg (reg b hb)))) := by
  simp [exec, execXor, binaryOp_of_lt _ s ha hb]

theorem exec_cmp : exec (.cmp a b) s = .next (advance .cmp
    { s with fl := compareFlags (s.readReg (reg a ha)) (s.readReg (reg b hb)) }) := by
  simp [exec, execCmp, regPair_of_lt ha hb, bind, Except.bind, pure, Except.pure]

theorem exec_not : exec (.not a) s = .next (advance .not
    (s.writeReg (reg a ha) (~~~(s.readReg (reg a ha))))) := by
  simp [exec, execNot, regIndex_of_lt ha, bind, Except.bind, pure, Except.pure]

theorem exec_push (h : s.readReg Config.sp ≠ 0) : exec (.push a) s = .next (advance .push
    (pushed s (if reg a ha = Config.sp then s.readReg Config.sp - 1 else s.readReg (reg a ha)))) := by
  simp only [exec, execPush, regIndex_of_lt ha, bind, Except.bind, pushValue_of_pos _ h, readReg_writeReg,
    conclude_ok, pushed]

theorem exec_call (h : s.readReg Config.sp ≠ 0) : exec (.call a) s = .next (advance .call
    { pushed s (returnAddress s) with
      pc := (if reg a ha = Config.sp then s.readReg Config.sp - 1 else s.readReg (reg a ha)).setWidth 9 }) := by
  simp only [exec, execCall, regIndex_of_lt ha, bind, Except.bind, pure, Except.pure, pushValue_of_pos _ h,
    conclude_ok]
  rw [← readReg_pushed s (returnAddress s) (reg a ha)]
  rfl

theorem exec_pop : exec (.pop a) s = .next (advance .pop
    (incrementSp (s.writeReg (reg a ha) (s.readCell (s.readReg Config.sp).toNat)))) := by
  simp only [exec, execPop, regIndex_of_lt ha, bind, Except.bind, pure, Except.pure, memRead_stackTop, conclude_ok]

end

theorem exec_ret (s : State) : exec .ret s = .next (advance .ret
    { incrementSp s with pc := (s.readCell (s.readReg Config.sp).toNat).setWidth 9 }) := by
  simp only [exec, execRet, bind, Except.bind, pure, Except.pure, memRead_stackTop, conclude_ok]

end Sys2Proof.Machine
end

