-- ==== Sys2Proof/Laws/PerInstr.lean ====
section
/-! SUPPORT. Statements about the instruction as syntax, one lemma per constructor. The family RegOperandsEncoded: every
byte an instruction uses as a register index (rule R85) is one of its encoded operand bytes (rule R94). -/

namespace Sys2Proof.Laws.RegOperandsEncoded

/-- Every register operand of the instruction stands among the bytes after its opcode. -/
def Statement (i : Instr) : Prop :=
  ∀ b ∈ i.regOperands, b ∈ (encode i).tail

theorem hlt : Statement .hlt := fun _ h => h
theorem ldi (a b : Byte) : Statement (.ldi a b) := fun _ h => List.mem_append_left [b] h
theorem prn (a : Byte) : Statement (.prn a) := fun _ h => h
theorem mul (a b : Byte) : Statement (.mul a b) := fun _ h => h
theorem add (a b : Byte) : Statement (.add a b) := fun _ h => h
theorem sub (a b : Byte) : Statement (.sub a b) := fun _ h => h
theorem div (a b : Byte) : Statement (.div a b) := fun _ h => h
theorem mod (a b : Byte) : Statement (.mod a b) := fun _ h => h
theorem push (a : Byte) : Statement (.push a) := fun _ h => h
theorem pop (a : Byte) : Statement (.pop a) := fun _ h => h
theorem call (a : Byte) : Statement (.call a) := fun _ h => h
theorem ret : Statement .ret := fun _ h => h
theorem and (a b : Byte) : Statement (.and a b) := fun _ h => h
theorem or (a b : Byte) : Statement (.or a b) := fun _ h => h
theorem xor (a b : Byte) : Statement (.xor a b) := fun _ h => h
theorem not (a : Byte) : Statement (.not a) := fun _ h => h
theorem cmp (a b : Byte) : Statement (.cmp a b) := fun _ h => h

end Sys2Proof.Laws.RegOperandsEncoded
end

