-- ==== Sys2Proof/Tests/Slice0.lean ====
section
/-! SUPPORT. Tests whose expected values come from the spec (30_encoding.md, the worked examples, 95_test_vectors.md),
and for every obligation with hypotheses a witness that meets them. -/

namespace Sys2Proof.Tests

open Sys2Proof.Machine

/-! Helpers. -/

/-- A running machine with bytes from `origin` on, where `pc` points, the given registers and the given further cells;
everything else as at reset. -/
def running (bytes : List Byte) (regs : List (RegNum × Byte) := []) (cells : List Host.Cell := [])
    (origin : Nat := 0) : State :=
  let s := regs.foldl (fun s r => s.writeReg r.1 r.2) State.reset
  { s with
    mem := cells.foldl (fun m c => Memory.write m c.1 c.2) (Memory.writeList [] origin bytes)
    pc := BitVec.ofNat 9 origin
    run := .running }

/-- The outcome is a next state with this property. -/
def nextIs (o : Outcome) (p : State → Bool) : Bool :=
  match o with
  | .next t => p t
  | .fault _ => false
  | .refused _ => false

/-- The outcome is this fault of the model. -/
def stopsWith (f : Fault) (o : Outcome) : Bool :=
  match o with
  | .next _ => false
  | .fault g => g == f
  | .refused _ => false

/-- An outcome that evaluates to a next state is one. -/
theorem exists_next {o : Outcome} (h : nextIs o (fun _ => true) = true) : ∃ t, o = .next t := by
  cases o with
  | next t => exact ⟨t, rfl⟩
  | fault => cases h
  | refused => cases h

/-- An outcome that evaluates to a next state with a property is one. -/
theorem exists_next_with {o : Outcome} {P : State → Prop} [DecidablePred P]
    (h : nextIs o (fun t => decide (P t)) = true) : ∃ t, o = .next t ∧ P t := by
  cases o with
  | next t => exact ⟨t, rfl, of_decide_eq_true h⟩
  | fault => cases h
  | refused => cases h

/-- A run that evaluates to an end has one. -/
theorem exists_end {r : Except HostReject (Option (State × (RunState × Option FaultCause)))}
    (h : (r.toOption.bind id).isSome = true) : ∃ u st, r = .ok (some (u, st)) := by
  cases r with
  | error => cases h
  | ok v =>
    cases v with
    | none => cases h
    | some p => exact ⟨p.1, p.2, rfl⟩

/-- The next state is faulted with this cause, reports it last, and left `pc`, the registers and memory alone. -/
def faultsWith (c : FaultCause) (s : State) (o : Outcome) : Bool :=
  nextIs o fun t => t.run == .faulted && t.cause == some c && t.trace == s.trace ++ [.fault c] &&
    t.pc == s.pc && t.x == s.x && t.mem == s.mem

/-! Well-formedness: one ill-formed term for each check. -/

theorem test_wellFormed_refuses_first_operand : (Instr.prn 8).wellFormed true = false := by decide
theorem test_wellFormed_refuses_second_operand : (Instr.add 7 255).wellFormed true = false := by decide
theorem test_wellFormed_refuses_absent_extension : (Instr.cmp 0 1).wellFormed false = false := by decide
theorem test_wellFormed_accepts_large_immediate : (Instr.ldi 7 255).wellFormed false = true := by decide

/-! Decoding: every constructor's bytes, written out from rules R80 and R86. -/

theorem test_decode_hlt : decode false [0b00000001] = .ok (.hlt, []) := by decide
theorem test_decode_ldi : decode false [0b10000010, 0, 8] = .ok (.ldi 0 8, []) := by decide
theorem test_decode_prn : decode false [0b01000111, 0] = .ok (.prn 0, []) := by decide
theorem test_decode_mul : decode false [0b10100010, 4, 5] = .ok (.mul 4 5, []) := by decide
theorem test_decode_add : decode false [0b10100000, 0, 1] = .ok (.add 0 1, []) := by decide
theorem test_decode_sub : decode false [0b10100001, 2, 1] = .ok (.sub 2 1, []) := by decide
theorem test_decode_div : decode false [0b10100011, 0, 2] = .ok (.div 0 2, []) := by decide
theorem test_decode_mod : decode false [0b10100100, 1, 0] = .ok (.mod 1 0, []) := by decide
theorem test_decode_push : decode false [0b01000101, 2] = .ok (.push 2, []) := by decide
theorem test_decode_pop : decode false [0b01000110, 3] = .ok (.pop 3, []) := by decide
theorem test_decode_call : decode false [0b01010000, 1] = .ok (.call 1, []) := by decide
theorem test_decode_ret : decode false [0b00010001] = .ok (.ret, []) := by decide
theorem test_decode_and : decode true [0b10101000, 2, 1] = .ok (.and 2 1, []) := by decide
theorem test_decode_or : decode true [0b10101010, 2, 1] = .ok (.or 2 1, []) := by decide
theorem test_decode_xor : decode true [0b10101011, 0, 1] = .ok (.xor 0 1, []) := by decide
theorem test_decode_not : decode true [0b01101001, 1] = .ok (.not 1, []) := by decide
theorem test_decode_cmp : decode true [0b10100111, 0, 1] = .ok (.cmp 0 1, []) := by decide

/-- The four ways decoding answers something else: no byte, an unknown byte, a missing operand, an absent extension. -/
theorem test_decode_rejects :
    decode true [] = .error .noOpcode ∧ decode true [0xFF] = .error (.unknownOpcode 0xFF) ∧
    decode true [0x82, 9] = .error (.missingOperand 0x82) ∧
    decode false [0xA8, 0, 1] = .error (.unknownOpcode 0xA8) := by decide

/-- The scenario's twelve bytes (95_test_vectors.md S1), decoded one instruction after the other. -/
theorem test_decode_leaves_the_rest :
    decode false [0x82, 1, 9, 0xA0, 0, 1] = .ok (.ldi 1 9, [0xA0, 0, 1]) := by decide

theorem test_decodeTableWord :
    decodeTableWord 24 0x080082 = some (.ldi 0 8) ∧ decodeTableWord 16 0x0347 = some (.prn 3) ∧
    decodeTableWord 8 0x82 = some (.ldi 0 0) ∧ decodeTableWord 8 0xFF = none := by decide

/-! Reset, and the way a program comes to run. -/

theorem test_reset_values :
    State.reset.x.toList = [0, 0, 0, 0, 0, 0, 0, 0xF4] ∧ State.reset.pc = 0 ∧ State.reset.run = .preRun := by decide

theorem test_reset_memory_wf : Memory.wf State.reset.mem := by decide

theorem test_no_step_before_run : stopsWith .beforeRun (step State.reset) = true := by decide

/-- `run()` without an image faults at once (rule R203). -/
theorem test_run_without_image :
    nextIs (stepWith false { State.reset with run := .running })
      (fun t => t.cause == some (.unknownInstruction 0 0)) = true := by decide

theorem test_withFetchWord_runs_it :
    nextIs (step (State.reset.withFetchWord 24 0x080082)) (fun t => t.readReg 0 == 8 && t.pc == 3) = true := by decide

theorem test_load_sets_pc :
    (hostLoad [0x47, 0] State.reset 254).toOption.map (fun t => (t.pc, t.readCell 254, t.run)) =
      some (254, 0x47, .preRun) := by decide

theorem test_load_refused_whole :
    hostLoad [0x47, 0] State.reset 255 = .error .imageDoesNotFit := by decide

/-- The empty program (95_test_vectors.md S3). -/
theorem test_run_status :
    (hostRun true 1 State.reset).toOption.bind (fun r => r.map Prod.snd) =
      some (.faulted, some (.unknownInstruction 0 0)) := by decide

theorem test_console_of_scenario : consoleOutput [.print 17, .divideByZero .div 14, .print 244] =
    ['1', '7', '\n', '2', '4', '4', '\n'] := by decide

/-! One step each (95_test_vectors.md S1, V1 to V5, P2, P3). -/

theorem test_hlt_at_255 : nextIs (step (running [0x01] [] [] 255))
    (fun t => t.run == .halted && t.pc == 256) = true := by decide

theorem test_ldi_writes_stack_pointer : nextIs (step (running [0x82, 7, 0x80]))
    (fun t => t.readReg 7 == 128 && t.pc == 3) = true := by decide
theorem test_ldi_illegal_register : faultsWith (.addressFault (.regIndex 8)) (running [0x82, 8, 1])
    (step (running [0x82, 8, 1])) = true := by decide

theorem test_prn_stack_pointer : nextIs (step (running [0x47, 7]))
    (fun t => t.trace == [.print 244] && t.pc == 2) = true := by decide
theorem test_prn_illegal_register : faultsWith (.addressFault (.regIndex 200)) (running [0x47, 0xC8])
    (step (running [0x47, 0xC8])) = true := by decide

theorem test_add_wraps : nextIs (step (running [0xA0, 0, 1] [(0, 200), (1, 100)]))
    (fun t => t.readReg 0 == 44 && t.readReg 1 == 100 && t.pc == 3) = true := by decide
theorem test_add_same_register : nextIs (step (running [0xA0, 2, 2] [(2, 130)]))
    (fun t => t.readReg 2 == 4) = true := by decide

theorem test_sub_below_zero : nextIs (step (running [0xA1, 2, 1] [(1, 12)]))
    (fun t => t.readReg 2 == 244 && t.readReg 1 == 12 && t.pc == 3) = true := by decide
theorem test_sub_same_register : nextIs (step (running [0xA1, 3, 3] [(3, 5)]))
    (fun t => t.readReg 3 == 0) = true := by decide

theorem test_mul_keeps_low_byte : nextIs (step (running [0xA2, 0, 1] [(0, 255), (1, 255)]))
    (fun t => t.readReg 0 == 1 && t.readReg 1 == 255 && t.pc == 3) = true := by decide
theorem test_mul_squares : nextIs (step (running [0xA2, 4, 4] [(4, 20)]))
    (fun t => t.readReg 4 == 144) = true := by decide

theorem test_div_quotient : nextIs (step (running [0xA3, 0, 1] [(0, 7), (1, 2)]))
    (fun t => t.readReg 0 == 3 && t.trace == []) = true := by decide
theorem test_div_by_zero : nextIs (step (running [0xA3, 0, 2] [(0, 44)] [] 14))
    (fun t => t.readReg 0 == 44 && t.trace == [.divideByZero .div 14] && t.pc == 17 && t.run == .running) = true := by
  decide

theorem test_mod_remainder : nextIs (step (running [0xA4, 1, 0] [(1, 100), (0, 44)]))
    (fun t => t.readReg 1 == 12 && t.readReg 0 == 44) = true := by decide
theorem test_mod_by_zero : nextIs (step (running [0xA4, 0, 1] [(0, 9)]))
    (fun t => t.readReg 0 == 9 && t.trace == [.divideByZero .mod 0] && t.pc == 3) = true := by decide

theorem test_and : nextIs (step (running [0xA8, 0, 1] [(0, 0xF0), (1, 0x3C)]))
    (fun t => t.readReg 0 == 0x30 && t.readReg 1 == 0x3C && t.pc == 3) = true := by decide
theorem test_and_without_extension : faultsWith (.unknownInstruction 0xA8 0) (running [0xA8, 0, 1])
    (stepWith false (running [0xA8, 0, 1])) = true := by decide

theorem test_or : nextIs (step (running [0xAA, 0, 1] [(0, 0xF0), (1, 0x3C)]))
    (fun t => t.readReg 0 == 0xFC && t.pc == 3) = true := by decide

theorem test_xor : nextIs (step (running [0xAB, 0, 1] [(0, 0xF0), (1, 0x3C)]))
    (fun t => t.readReg 0 == 0xCC && t.pc == 3) = true := by decide
theorem test_xor_clears : nextIs (step (running [0xAB, 3, 3] [(3, 0x5A)]))
    (fun t => t.readReg 3 == 0) = true := by decide

theorem test_not : nextIs (step (running [0x69, 6] [(6, 0xA5)]))
    (fun t => t.readReg 6 == 0x5A && t.pc == 2) = true := by decide
theorem test_not_of_zero : nextIs (step (running [0x69, 0])) (fun t => t.readReg 0 == 255) = true := by decide

theorem test_cmp_unsigned_greater : nextIs (step (running [0xA7, 0, 1] [(0, 255), (1, 1)]))
    (fun t => t.fl == 2 && t.readReg 0 == 255 && t.pc == 3) = true := by decide
theorem test_cmp_less : nextIs (step (running [0xA7, 0, 1] [(0, 3), (1, 7)])) (fun t => t.fl == 4) = true := by decide

theorem test_push_reset_stack : nextIs (step (running [0x45, 2] [(2, 171)]))
    (fun t => t.readReg 7 == 243 && t.readCell 243 == 171 && t.pc == 2) = true := by decide
theorem test_push_stack_pointer : nextIs (step (running [0x45, 7]))
    (fun t => t.readReg 7 == 243 && t.readCell 243 == 243) = true := by decide

theorem test_pop_wraps : nextIs (step (running [0x46, 1] [(7, 255)] [(255, 18)]))
    (fun t => t.readReg 1 == 18 && t.readReg 7 == 0 && t.readCell 255 == 18 && t.pc == 2) = true := by decide
theorem test_pop_stack_pointer : nextIs (step (running [0x46, 7] [(7, 243)] [(243, 32)]))
    (fun t => t.readReg 7 == 33) = true := by decide

theorem test_call_at_254 : nextIs (step (running [0x50, 0] [] [(243, 9)] 254))
    (fun t => t.readCell 243 == 0 && t.readReg 7 == 243 && t.pc == 0) = true := by decide
theorem test_call_stack_pointer : nextIs (step (running [0x50, 7]))
    (fun t => t.readCell 243 == 2 && t.readReg 7 == 243 && t.pc == 243) = true := by decide

theorem test_ret : nextIs (step (running [0x11] [(7, 243)] [(243, 42)]))
    (fun t => t.pc == 42 && t.readReg 7 == 244) = true := by decide
theorem test_ret_wraps : nextIs (step (running [0x11] [(7, 255)] [(255, 9)]))
    (fun t => t.pc == 9 && t.readReg 7 == 0) = true := by decide

/-! Faults and their priority (95_test_vectors.md V5, rule R227). -/

theorem test_fetch_past_the_end : faultsWith (.addressFault (.memAddr 256)) (running [] [] [] 256)
    (step (running [] [] [] 256)) = true := by decide
theorem test_unknown_before_operands : faultsWith (.unknownInstruction 0xFF 255) (running [0xFF] [] [] 255)
    (step (running [0xFF] [] [] 255)) = true := by decide
theorem test_operand_read_before_validation : faultsWith (.addressFault (.memAddr 256)) (running [0x82, 9] [] [] 254)
    (step (running [0x82, 9] [] [] 254)) = true := by decide
theorem test_validation_before_stack : faultsWith (.addressFault (.regIndex 9)) (running [0x45, 9] [(7, 0)])
    (step (running [0x45, 9] [(7, 0)])) = true := by decide
theorem test_validation_before_zero_divisor : faultsWith (.addressFault (.regIndex 9)) (running [0xA3, 0, 9])
    (step (running [0xA3, 0, 9])) = true := by decide
theorem test_push_at_zero : faultsWith (.addressFault (.memAddr (-1))) (running [0x45, 2] [(2, 171), (7, 0)])
    (step (running [0x45, 2] [(2, 171), (7, 0)])) = true := by decide
theorem test_call_at_zero : faultsWith (.addressFault (.memAddr (-1))) (running [0x50, 3] [(3, 64), (7, 0)])
    (step (running [0x50, 3] [(3, 64), (7, 0)])) = true := by decide

/-- A push onto the next instruction is seen by its fetch (95_test_vectors.md P4). -/
theorem test_push_overwrites_code : nextIs (step (running [0x45, 0, 0xFF] [(7, 9), (0, 1)] [] 6))
    (fun t => nextIs (step t) fun u => u.run == .halted && u.pc == 9) = true := by decide

/-! Witnesses: for each obligation, states and operands that meet its hypotheses. -/

theorem witness_DecodeInvertsEncode :
    (Instr.add 255 8).presentIn false = true ∧ (Instr.cmp 0 255).presentIn true = true ∧
    decode false [0xA0, 255, 8, 1] = .ok (.add 255 8, [1]) := by decide

theorem witness_UnknownOpcodesFault :
    (running [0x13] [] [] 255).run = .running ∧ (running [0x13] [] [] 255).pc.toNat < 256 ∧
    decodeOpcode true ((running [0x13] [] [] 255).readCell (running [0x13] [] [] 255).pc.toNat) = none := by decide

theorem witness_ExtensionGatesItsFiveOpcodesOnly_extension :
    (running [0xA7] [] [] 255).run = .running ∧ (running [0xA7] [] [] 255).pc.toNat < 256 ∧
    (running [0xA7] [] [] 255).readCell (running [0xA7] [] [] 255).pc.toNat = 0xA7 := by decide

theorem witness_ExtensionGatesItsFiveOpcodesOnly_base :
    (running [0xA0, 0, 1]).readCell (running [0xA0, 0, 1]).pc.toNat ∉ ([0xA8, 0xAA, 0xAB, 0x69, 0xA7] : List Byte) ∧
    ¬ (running [] [] [] 256).pc.toNat < 256 ∧ ∃ t, stepWith false (running [0xA0, 0, 1]) = .next t :=
  ⟨by decide, by decide, exists_next (by decide)⟩

theorem witness_StepRunsTheDecodedInstruction :
    (running [0xA0, 0, 1] [] [] 253).run = .running ∧
    decode Config.aluExt (codeFrom (running [0xA0, 0, 1] [] [] 253)) = .ok (.add 0 1, []) ∧
    (running [0x01] [] [] 255).run = .running ∧
    decode false (codeFrom (running [0x01] [] [] 255)) = .ok (.hlt, []) := by decide

theorem witness_StepFaultsWhereNothingDecodes :
    decode true (codeFrom (running [] [] [] 256)) = .error .noOpcode ∧
    decode true (codeFrom (running [0xFF] [] [] 255)) = .error (.unknownOpcode 0xFF) ∧
    decode true (codeFrom (running [0x47] [] [] 255)) = .error (.missingOperand 0x47) ∧
    decode true (codeFrom (running [0x82, 0] [] [] 254)) = .error (.missingOperand 0x82) ∧
    (running [] [] [] 256).pc.toNat ≤ 256 ∧ (running [] [] [] 256).run = .running := by decide

theorem witness_RunningCoreAlwaysSteps : (running [] [] [] 256).run = .running := by decide

theorem witness_RunStateTransitions :
    State.reset.run = .preRun ∧ State.reset.run ≠ .running ∧ (∃ t, hostLoad [1] State.reset 255 = .ok t) ∧
    (∃ t, stepWith false (running [0x01]) = .next t) ∧ Instr.push 0 ≠ .hlt ∧
    ∃ t, exec (.push 0) (running []) = .next t :=
  ⟨rfl, by decide, ⟨_, rfl⟩, exists_next (by decide), by decide, exists_next (by decide)⟩

theorem witness_AdvanceFollowsOpcodeBits :
    (running [] [] [] 253).run = .running ∧ (running [] [] [] 253).pc.toNat < 256 ∧
    (∃ t, exec (.add 0 1) (running [] [] [] 253) = .next t ∧ t.run ≠ .faulted) ∧
    (∃ t, exec (.call 1) (running [] [] [] 254) = .next t ∧ t.run ≠ .faulted) ∧
    ∃ t, exec .ret (running [] [] [] 255) = .next t ∧ t.run ≠ .faulted :=
  ⟨rfl, by decide, exists_next_with (by decide), exists_next_with (by decide),
    exists_next_with (by decide)⟩

theorem witness_RegisterIndexIsBoundsChecked :
    (Instr.prn 8).operandsLegal = false ∧ (Instr.cmp 7 255).operandsLegal = false ∧
    (Instr.ldi 7 255).operandsLegal = true ∧ ∃ t, exec (.ldi 7 255) (running []) = .next t :=
  ⟨by decide, by decide, by decide, exists_next (by decide)⟩

theorem witness_FirstIllegalOperandIsReported :
    (Instr.add 8 255).regOperands.find? (fun b => decide (8 ≤ b.toNat)) = some 8 ∧
    (Instr.add 7 255).regOperands.find? (fun b => decide (8 ≤ b.toNat)) = some 255 := by decide

theorem witness_HltEndsTheRun :
    (running [0x01] [] [] 255).pc.toNat = 255 ∧ ({ State.reset with run := .halted } : State).run = .halted ∧
    ∃ t, stepWith false (running [0x01]) = .next t ∧ t.run = .halted :=
  ⟨by decide, rfl, exists_next_with (by decide)⟩

theorem witness_LdiLoadsTheImmediate :
    (7 : Byte).toNat < 8 ∧ 8 ≤ (8 : Byte).toNat ∧ 8 ≤ (255 : Byte).toNat ∧
    (running [0x82, 0] [] [] 254).run = .running ∧ (running [0x82, 0] [] [] 254).pc.toNat = 254 ∧
    (running [0x82, 0] [] [] 254).readCell 254 = 0x82 ∧
    (running [0x82] [] [] 255).run = .running ∧ (running [0x82] [] [] 255).pc.toNat = 255 ∧
    (running [0x82] [] [] 255).readCell 255 = 0x82 := by decide

theorem witness_PrnEmitsTheRegister :
    (7 : Byte).toNat < 8 ∧ 8 ≤ (8 : Byte).toNat ∧ (running [0x47] [] [] 255).run = .running ∧
    (running [0x47] [] [] 255).pc.toNat = 255 ∧ (running [0x47] [] [] 255).readCell 255 = 0x47 := by decide

/-- ArithmeticIsExactModulo256, BitwiseOperationsActBitByBit, CmpSetsExactlyOneFlag, PopLoadsTheTopOfStack: the least
and the greatest register operand. -/
theorem witness_legal_operands : (0 : Byte).toNat < 8 ∧ (7 : Byte).toNat < 8 := by decide

theorem witness_DivisionGivesQuotientAndRemainder :
    (running [] [(0, 255), (1, 1)]).readReg (reg 1 (by decide)) ≠ 0 ∧ (0 : Byte).toNat < 8 := by decide

theorem witness_DivisionByZeroIsNoFault :
    (7 : Byte).toNat < 8 ∧ (running [] [(7, 0)]).readReg (reg 7 (by decide)) = 0 := by decide

theorem witness_DivisionByZeroReportsItsAddress :
    ∃ t, stepWith false (running [0xA3, 0, 1] [] [] 253) = .next t ∧
      t.trace = (running [0xA3, 0, 1] [] [] 253).trace ++ [.divideByZero .div 253] :=
  exists_next_with (by decide)

/-- PushStoresBelowTheStackPointer, CallPushesTheReturnAddress, PushThenPopRestoresRegisters: the stack pointer at 1 and
at 255, the operand register 7 and another. -/
theorem witness_stack_pointer_not_zero :
    (running [] [(7, 1)]).readReg Config.sp ≠ 0 ∧ (running [] [(7, 255)]).readReg Config.sp ≠ 0 ∧
    (7 : Byte).toNat < 8 ∧ (0 : Byte).toNat < 8 := by decide

theorem witness_StackPointerDoesNotWrapDown :
    (7 : Byte).toNat < 8 ∧ (running [] [(7, 0)]).readReg Config.sp = 0 := by decide

theorem witness_CallThenRetResumes :
    (running [] [] [] 253).readReg Config.sp ≠ 0 ∧ (running [] [] [] 253).pc.toNat + 2 < 256 ∧
    ∃ t, exec (.call 1) (running [] [] [] 253) = .next t ∧ t.readReg Config.sp = t.readReg Config.sp ∧
      t.readCell (t.readReg Config.sp).toNat = t.readCell (t.readReg Config.sp).toNat :=
  ⟨by decide, by decide, exists_next_with (by decide)⟩

theorem witness_StackHoldsExactly244Pushes :
    (running []).readReg Config.sp = Config.spReset ∧ (running []).run ≠ .faulted ∧ (7 : Byte).toNat < 8 ∧
    (0 : Byte).toNat < 7 := by decide

theorem witness_StoredByteIsFetchedNext_push :
    (∃ t, exec (.push 0) (running [] [(7, 9), (0, 1)] [] 6) = .next t ∧ t.run = .running ∧
      (t.pc.toNat : Int) = stackPushAddr (running [] [(7, 9), (0, 1)] [] 6)) ∧
    (∃ t, exec (.push 7) (running [] [(7, 255)] [] 252) = .next t ∧ t.run = .running ∧
      (t.pc.toNat : Int) = stackPushAddr (running [] [(7, 255)] [] 252)) :=
  ⟨exists_next_with (by decide), exists_next_with (by decide)⟩

/-- A CALL of register 7 jumps to the byte it stores; one at 254 stores 0 there, one at 15 the opcode of RET. -/
theorem witness_StoredByteIsFetchedNext_call :
    (∃ t, exec (.call 7) (running [] [] [] 254) = .next t ∧ t.run = .running ∧
      (t.pc.toNat : Int) = stackPushAddr (running [] [] [] 254)) ∧
    (0 : Byte).toNat = ((running [] [] [] 254).pc.toNat + 2) % 256 ∧
    (∃ t, exec (.call 1) (running [] [(1, 8), (7, 9)] [] 15) = .next t ∧ t.run = .running ∧
      (t.pc.toNat : Int) = stackPushAddr (running [] [(1, 8), (7, 9)] [] 15)) ∧
    (0x11 : Byte).toNat = ((running [] [(1, 8), (7, 9)] [] 15).pc.toNat + 2) % 256 :=
  ⟨exists_next_with (by decide), by decide, exists_next_with (by decide), by decide⟩

theorem witness_MemoryPrimitivesAreBoundsChecked :
    ((-1 : Int) < 0 ∨ 256 ≤ (-1 : Int)) ∧ ((256 : Int) < 0 ∨ 256 ≤ (256 : Int)) ∧
    (0 ≤ (0 : Int) ∧ (0 : Int) < 256) ∧ (0 ≤ (255 : Int) ∧ (255 : Int) < 256) := by decide

/-- OnlyPushAndCallStore, OnlyDestinationRegistersChange, OnlyCmpWritesFlags: one form of each kind answers a next
state, and register 0 is one `CALL R1` does not write. -/
theorem witness_frames :
    (∃ t, exec (.call 1) (running []) = .next t) ∧ (∃ t, exec (.cmp 0 7) (running []) = .next t) ∧
    writtenRegs (.call 1) 0 = false ∧ storeAddr (.call 1) (running [] [(7, 1)]) = some 0 ∧
    storeAddr (.cmp 0 7) (running []) = none :=
  ⟨exists_next (by decide), exists_next (by decide), by decide, by decide, rfl⟩

theorem witness_TraceOnlyGrows :
    (∃ t, stepWith false (running [0x47, 7]) = .next t) ∧ (∃ t, stepWith false (running [0xFF]) = .next t) :=
  ⟨exists_next (by decide), exists_next (by decide)⟩

/-- Two states that differ in what no instruction reads. -/
theorem witness_HiddenStateIsNeverRead :
    (∃ s', s'.x = (running [0x46, 7]).x ∧ s'.pc = (running [0x46, 7]).pc ∧ s'.mem = (running [0x46, 7]).mem ∧
      (running [0x46, 7]).run = s'.run ∧ s' ≠ running [0x46, 7]) ∧
    ∃ t, stepWith true (running [0x46, 7]) = .next t :=
  ⟨⟨{ running [0x46, 7] with fl := 4, trace := [.print 3] }, rfl, rfl, rfl, rfl, by decide⟩, exists_next (by decide)⟩

/-- FaultsArePrecise and the first clause of EveryFaultIsReported. -/
theorem witness_FaultsArePrecise : ∃ t, stepWith false (running [0x45, 2] [(7, 0)]) = .next t ∧ t.run = .faulted :=
  exists_next_with (by decide)

theorem witness_EveryFaultIsReported :
    FaultsReported (running [0xFF]) ∧ (∃ t, stepWith false (running [0xFF]) = .next t) ∧
    (∃ s, FaultsReported s ∧ s.run = .faulted) ∧ ∃ s, FaultsReported s ∧ s.run = .halted :=
  ⟨⟨rfl, by decide⟩, exists_next (by decide),
    ⟨takeFault (.addressFault (.memAddr 256)) State.reset, ⟨_, [], rfl, rfl, by decide⟩, rfl⟩,
    { State.reset with run := .halted }, ⟨rfl, by decide⟩, rfl⟩

theorem witness_FaultedIsTerminal : (takeFault (.addressFault (.memAddr 256)) State.reset).run = .faulted := rfl

/-- A good running state, with either parameter value. -/
theorem running_good (aluExt : Bool) : GoodState aluExt (running [0x45, 2, 0x01] [(2, 171)] [] 0) where
  memWf := by decide
  pcBound := by decide
  flLegal := .inl rfl
  flAbsent := fun _ => rfl
  reported := ⟨rfl, by decide⟩
  causeLegal := fun _ h => by cases h

/-- EveryStepKeepsTheInvariant and RunsStayGoodAndKeepTheirTrace. -/
theorem witness_EveryStepKeepsTheInvariant :
    GoodState Config.aluExt (running [0x45, 2, 0x01] [(2, 171)] [] 0) ∧
    ∃ t, step (running [0x45, 2, 0x01] [(2, 171)] [] 0) = .next t :=
  ⟨running_good _, exists_next (by decide)⟩

/-- A good state before a run: one byte loaded at 255. -/
theorem loaded_good (aluExt : Bool) : GoodState aluExt { State.reset with mem := [(255, 0x01)], pc := 255 } where
  memWf := by decide
  pcBound := by decide
  flLegal := .inl rfl
  flAbsent := fun _ => rfl
  reported := ⟨rfl, by decide⟩
  causeLegal := fun _ h => by cases h

theorem witness_HostOperationsKeepTheInvariant :
    GoodState true { State.reset with mem := [(255, 0x01)], pc := 255 } ∧
    (∃ t, hostLoad [0x01] { State.reset with mem := [(255, 0x01)], pc := 255 } 255 = .ok t) ∧
    (∃ t, hostStart { State.reset with mem := [(255, 0x01)], pc := 255 } = .ok t) ∧
    ∃ t, hostReset { State.reset with mem := [(255, 0x01)], pc := 255 } = .ok t :=
  ⟨loaded_good true, ⟨_, rfl⟩, ⟨_, rfl⟩, _, rfl⟩

/-- The greatest origin with one byte, the origin one past memory with none, and the two ways not to fit. -/
theorem witness_LoadPlacesTheImage :
    State.reset.run = .preRun ∧ (0 ≤ (255 : Int) ∧ (255 : Int) + ([0x01] : List Byte).length ≤ 256) ∧
    (0 ≤ (256 : Int) ∧ (256 : Int) + ([] : List Byte).length ≤ 256) ∧ (-1 : Int) < 0 ∧
    256 < (256 : Int) + ([0x01] : List Byte).length := by decide

theorem witness_RunStepsUntilTheEnd :
    State.reset.run = .preRun ∧ (running []).run ≠ .preRun ∧
    ∃ u st, hostRun false 1 State.reset = .ok (some (u, st)) :=
  ⟨rfl, by decide, exists_end (by decide)⟩

theorem witness_RunReturnsItsStatus :
    GoodState false { State.reset with mem := [(255, 0x01)], pc := 255 } ∧
    ∃ u st, hostRun false 1 { State.reset with mem := [(255, 0x01)], pc := 255 } = .ok (some (u, st)) :=
  ⟨loaded_good false, exists_end (by decide)⟩

theorem witness_HostOperationsByRunState :
    (running []).run ≠ .preRun ∧ (running []).run = .running ∧ State.reset.run ≠ .running := by decide

end Sys2Proof.Tests
end

section
/-! Proofs of the family `10_state.md`: register operands (rules R22, R84, R91). -/

namespace Sys2Proof.Machine

/-! Which operand bytes are legal. -/

/-- The check of rule R84, as a statement about each register operand. -/
theorem operandsLegal_iff (i : Instr) : i.operandsLegal = true ↔ ∀ b ∈ i.regOperands, b.toNat < 8 := by
  simp [Instr.operandsLegal]

theorem forall_mem_pair_lt_iff {a b : Byte} : (∀ x ∈ [a, b], x.toNat < 8) ↔ a.toNat < 8 ∧ b.toNat < 8 := by
  rw [List.forall_mem_cons, List.forall_mem_singleton]

/-- An instruction that fails the check of rule R84 has a first illegal register operand. -/
theorem exists_firstIllegal_of_not_legal {i : Instr} (h : i.operandsLegal = false) :
    ∃ b, i.regOperands.find? (fun b => decide (8 ≤ b.toNat)) = some b := by
  rw [← Option.isSome_iff_exists, List.find?_isSome]
  simpa [Instr.operandsLegal] using h

/-- The first illegal operand byte is one of the operands, and illegal. -/
theorem firstIllegal_mem_and_ge {bs : List Byte} {c : Byte}
    (h : bs.find? (fun b => decide (8 ≤ b.toNat)) = some c) : c ∈ bs ∧ 8 ≤ c.toNat := by
  have hc := List.find?_some h
  exact ⟨List.mem_of_find?_eq_some h, of_decide_eq_true hc⟩

/-! Illegal operands: validation comes first in every meaning (rule R114). -/

theorem regIndex_of_firstIllegal {a c : Byte} (h : [a].find? (fun b => decide (8 ≤ b.toNat)) = some c) :
    regIndex a = .error (.addressFault (.regIndex c)) := by
  obtain ⟨hmem, hc⟩ := firstIllegal_mem_and_ge h
  obtain rfl := List.mem_singleton.mp hmem
  exact regIndex_of_ge hc

theorem regPair_of_firstIllegal {a b c : Byte} (h : [a, b].find? (fun b => decide (8 ≤ b.toNat)) = some c) :
    regPair a b = .error (.addressFault (.regIndex c)) := by
  rcases regPair_cases a b with ⟨ha, hb, -⟩ | ⟨ha, hr⟩ | ⟨ha, hb, hr⟩
  · obtain ⟨hmem, hc⟩ := firstIllegal_mem_and_ge h
    exact absurd (forall_mem_pair_lt_iff.mpr ⟨ha, hb⟩ c hmem) (Nat.not_lt.mpr hc)
  · obtain rfl : a = c := by simpa [List.find?_cons, ha] using h
    exact hr
  · obtain rfl : b = c := by simpa [List.find?_cons, Nat.not_le.mpr ha, hb] using h
    exact hr

/-- An execute phase whose first operation raises takes that fault. -/
theorem conclude_bind_of_error {α : Type} {k : Opcode} {s : State} {x : Except FaultCause α} {c : FaultCause}
    {f : α → Except FaultCause State} (h : x = .error c) : conclude k s (x >>= f) = .next (takeFault c s) := by
  rw [h]
  rfl

/-- The first illegal register operand is reported, before any other effect or fault (rules R91, R114). -/
theorem exec_of_firstIllegal {i : Instr} (s : State) {c : Byte}
    (h : i.regOperands.find? (fun b => decide (8 ≤ b.toNat)) = some c) :
    exec i s = .next (takeFault (.addressFault (.regIndex c)) s) := by
  cases i with
  | hlt | ret => cases h
  | ldi a _ | prn a | push a | pop a | call a | not a =>
    exact conclude_bind_of_error (regIndex_of_firstIllegal h)
  | mul a b | add a b | sub a b | div a b | mod a b | and a b | or a b | xor a b | cmp a b =>
    exact conclude_bind_of_error (regPair_of_firstIllegal h)

/-! Legal operands: the only fault left is the push below address 0 (rule R185). -/

/-- The outcome is a next state that appends no `Fault` to the trace of `s`. -/
def CompletesFrom (s : State) (o : Outcome) : Prop :=
  ∃ t es, o = .next t ∧ t.trace = s.trace ++ es ∧ ∀ e ∈ es, e.isFault = false

/-- A completed instruction reports no fault of any cause. -/
theorem CompletesFrom.trace_ne_fault {s t : State} {o : Outcome} (h : CompletesFrom s o) (ho : o = .next t)
    (c : FaultCause) : t.trace ≠ s.trace ++ [.fault c] := by
  obtain ⟨u, es, hu, htrace, hes⟩ := h
  obtain rfl : u = t := by simpa [hu] using ho
  rw [htrace]
  intro heq
  obtain rfl := List.append_cancel_left heq
  exact absurd (hes (.fault c) List.mem_cons_self) (by simp [Event.isFault])

theorem completesFrom_of_trace_eq {s u : State} {k : Opcode} {o : Outcome} (h : o = .next (advance k u))
    (ht : u.trace = s.trace) : CompletesFrom s o :=
  ⟨_, [], h, by simp [ht], by simp⟩

theorem completesFrom_of_emit {s : State} {k : Opcode} {o : Outcome} {e : Event}
    (h : o = .next (advance k (emit e s))) (he : e.isFault = false) : CompletesFrom s o :=
  ⟨_, [e], h, by simp, by simpa using he⟩

theorem completesFrom_binaryOp {k : Opcode} {f : Byte → Byte → Byte} {a b : Byte} {s : State}
    (h : ∀ x ∈ [a, b], x.toNat < 8) : CompletesFrom s (conclude k s (binaryOp f a b s)) := by
  obtain ⟨ha, hb⟩ := forall_mem_pair_lt_iff.mp h
  rw [binaryOp_of_lt f s ha hb, conclude_ok]
  exact completesFrom_of_trace_eq rfl rfl

/-- DIV and MOD complete, with a zero divisor as with any other (rule R223). -/
theorem completesFrom_divisionOp {k : Opcode} {op : DivOp} {f : Byte → Byte → Byte} {a b : Byte} {s : State}
    (h : ∀ x ∈ [a, b], x.toNat < 8) : CompletesFrom s (conclude k s (divisionOp op f a b s)) := by
  obtain ⟨ha, hb⟩ := forall_mem_pair_lt_iff.mp h
  rw [divisionOp_of_lt op f s ha hb, conclude_ok]
  split
  · exact completesFrom_of_emit rfl rfl
  · exact completesFrom_of_trace_eq rfl rfl

/-- A push with the stack pointer at 0 faults with the address -1 (rule R185). -/
theorem exec_push_of_sp_zero {a : Byte} {s : State} (ha : a.toNat < 8) (h : s.readReg Config.sp = 0) :
    exec (.push a) s = .next (takeFault (.addressFault (.memAddr (-1))) s) := by
  simp [exec, execPush, regIndex_of_lt ha, pushValue_of_zero _ h, bind, Except.bind]

/-- CALL pushes its return address, so it faults as PUSH does (rule R185). -/
theorem exec_call_of_sp_zero {a : Byte} {s : State} (ha : a.toNat < 8) (h : s.readReg Config.sp = 0) :
    exec (.call a) s = .next (takeFault (.addressFault (.memAddr (-1))) s) := by
  simp [exec, execCall, regIndex_of_lt ha, pushValue_of_zero _ h, bind, Except.bind]

/-- An instruction with legal register operands completes, or takes the fault of a push with the stack pointer at 0. -/
theorem exec_of_operandsLegal {i : Instr} (s : State) (hi : i.operandsLegal = true) :
    CompletesFrom s (exec i s) ∨ exec i s = .next (takeFault (.addressFault (.memAddr (-1))) s) := by
  have h := (operandsLegal_iff i).mp hi
  cases i with
  | hlt => exact .inl (completesFrom_of_trace_eq (exec_hlt s) rfl)
  | ret => exact .inl (completesFrom_of_trace_eq (exec_ret s) rfl)
  | ldi a b => exact .inl (completesFrom_of_trace_eq (exec_ldi b s (h a List.mem_cons_self)) rfl)
  | prn a => exact .inl (completesFrom_of_emit (exec_prn s (h a List.mem_cons_self)) rfl)
  | not a => exact .inl (completesFrom_of_trace_eq (exec_not s (h a List.mem_cons_self)) rfl)
  | pop a => exact .inl (completesFrom_of_trace_eq (exec_pop s (h a List.mem_cons_self)) rfl)
  | push a =>
    have ha := h a List.mem_cons_self
    by_cases hsp : s.readReg Config.sp = 0
    · exact .inr (exec_push_of_sp_zero ha hsp)
    · exact .inl (completesFrom_of_trace_eq (exec_push s ha hsp) rfl)
  | call a =>
    have ha := h a List.mem_cons_self
    by_cases hsp : s.readReg Config.sp = 0
    · exact .inr (exec_call_of_sp_zero ha hsp)
    · exact .inl (completesFrom_of_trace_eq (exec_call s ha hsp) rfl)
  | mul a b | add a b | sub a b | and a b | or a b | xor a b => exact .inl (completesFrom_binaryOp h)
  | div a b | mod a b => exact .inl (completesFrom_divisionOp h)
  | cmp a b =>
    obtain ⟨ha, hb⟩ := forall_mem_pair_lt_iff.mp h
    exact .inl (completesFrom_of_trace_eq (exec_cmp s ha hb) rfl)

/-- Settles O12: an illegal operand stops the instruction in the validation; legal ones leave only completion and
the fault at address -1. -/
theorem registerIndexIsBoundsChecked : Obligations.RegisterIndexIsBoundsChecked := by
  refine ⟨fun i s hi => ?_, fun i s t hi ht b => ?_⟩
  · obtain ⟨b, hb⟩ := exists_firstIllegal_of_not_legal hi
    obtain ⟨hmem, hge⟩ := firstIllegal_mem_and_ge hb
    exact ⟨b, hmem, hge, takeFault _ s, exec_of_firstIllegal s hb, rfl, rfl, rfl⟩
  · rcases exec_of_operandsLegal s hi with hc | hf
    · exact hc.trace_ne_fault ht _
    · obtain rfl : takeFault _ s = t := by simpa [hf] using ht
      simp

end Sys2Proof.Machine
end

section
/-! Proofs of the family `20_memory.md`: the memory primitives (rules R52, R53). -/

namespace Sys2Proof.Machine

/-- What a cell reads as once the memory is the one a write leaves. -/
theorem readCell_memWritten (s : State) (a b : Nat) (v : Byte) :
    ({ s with mem := Memory.write s.mem a v } : State).readCell b = if a = b then v else s.readCell b :=
  Memory.read_write s.mem a b v

/-- Frame of memory of a write in range: only the cell at the exact integer address changes (rule R53). -/
theorem sameMemoryBut_memWritten {addr : Int} (h : 0 ≤ addr) (v : Byte) (s : State) :
    SameMemoryBut addr s { s with mem := Memory.write s.mem addr.toNat v } := by
  intro a ha
  have hne : addr.toNat ≠ a := by omega
  rw [readCell_memWritten, if_neg hne]

/-- A write in range is seen by a read at the same exact address (rules R52, R53). -/
theorem memRead_memWritten {addr : Int} (v : Byte) (s : State) (h : 0 ≤ addr ∧ addr < 256) :
    memRead addr { s with mem := Memory.write s.mem addr.toNat v } = .ok v := by
  rw [memRead_of_inRange _ h, readCell_memWritten, if_pos rfl]

/-- Settles O32: out of range both primitives raise; in range the written state differs from `s` in `mem` alone, and
there in one cell. -/
theorem memoryPrimitivesAreBoundsChecked : Obligations.MemoryPrimitivesAreBoundsChecked := by
  refine ⟨fun addr v s h => ?_, fun addr v s h0 h256 => ?_⟩
  · exact ⟨memRead_of_outOfRange s h, memWrite_of_outOfRange v s h⟩
  · have h : 0 ≤ addr ∧ addr < 256 := ⟨h0, h256⟩
    have hregs : SameRegistersBut [] s { s with mem := Memory.write s.mem addr.toNat v } := fun _ _ => rfl
    exact ⟨memRead_of_inRange s h, _, memWrite_of_inRange v s h, memRead_memWritten v s h,
      sameMemoryBut_memWritten h0 v s, hregs, ⟨rfl, rfl, rfl⟩, rfl, rfl⟩

end Sys2Proof.Machine
end

section
/-! Proofs of the family `30_encoding.md`: the unknown opcodes (rules R86, R89, R90). -/

namespace Sys2Proof

/-- The opcode values of the kinds the machine has (rules R86, R166). -/
def opcodeBytes (aluExt : Bool) : List Byte :=
  (Opcode.all.filter fun k => aluExt || !k.needsAluExt).map Opcode.toByte

theorem mem_opcodeBytes_iff {aluExt : Bool} {b : Byte} :
    b ∈ opcodeBytes aluExt ↔ ∃ k : Opcode, (aluExt || !k.needsAluExt) = true ∧ k.toByte = b := by
  have hall : ∀ k : Opcode, k ∈ Opcode.all := fun k => by cases k <;> decide
  simp [opcodeBytes, hall]

/-- No value is given to two opcodes (rule R86). -/
theorem nodup_opcodeBytes (aluExt : Bool) : (opcodeBytes aluExt).Nodup := by
  cases aluExt <;> decide

/-- The decoder selects a kind exactly at the opcode values (rules R83, R89). -/
theorem decodeOpcode_isSome_iff {aluExt : Bool} {b : Byte} :
    (decodeOpcode aluExt b).isSome = true ↔ b ∈ opcodeBytes aluExt := by
  rw [mem_opcodeBytes_iff, Option.isSome_iff_exists]
  constructor
  · rintro ⟨k, hk⟩
    obtain ⟨hbyte, hpresent⟩ := Machine.decodeOpcode_some hk
    exact ⟨k, hpresent, hbyte⟩
  · rintro ⟨k, hpresent, rfl⟩
    exact ⟨k, Machine.decodeOpcode_toByte aluExt k hpresent⟩

/-- A byte is unknown exactly when it is no opcode value (rule R89). -/
theorem decodeOpcode_eq_none_iff {aluExt : Bool} {b : Byte} :
    decodeOpcode aluExt b = none ↔ b ∉ opcodeBytes aluExt := by
  rw [← decodeOpcode_isSome_iff, Option.not_isSome_iff_eq_none]

/-! How many bytes are unknown: all of them but the opcode values. -/

/-- Every byte value, in rising order. -/
def allBytes : List Byte := (List.range 256).map (BitVec.ofNat 8)

theorem mem_allBytes (b : Byte) : b ∈ allBytes :=
  List.mem_map.mpr ⟨b.toNat, List.mem_range.mpr b.isLt, by rw [BitVec.ofNat_toNat, BitVec.setWidth_eq]⟩

theorem nodup_allBytes : allBytes.Nodup := by
  refine List.nodup_range.map_on fun m hm n hn h => ?_
  have hmn := congrArg BitVec.toNat h
  rwa [BitVec.toNat_ofNat, BitVec.toNat_ofNat, Nat.mod_eq_of_lt (List.mem_range.mp hm),
    Nat.mod_eq_of_lt (List.mem_range.mp hn)] at hmn

/-- The known bytes are the opcode values, each once. -/
theorem known_perm_opcodeBytes (aluExt : Bool) :
    (allBytes.filter fun b => (decodeOpcode aluExt b).isSome).Perm (opcodeBytes aluExt) := by
  refine (List.perm_ext_iff_of_nodup (nodup_allBytes.filter _) (nodup_opcodeBytes aluExt)).mpr fun b => ?_
  rw [List.mem_filter, decodeOpcode_isSome_iff, and_iff_right (mem_allBytes b)]

theorem length_unknown (aluExt : Bool) :
    (allBytes.filter fun b => (decodeOpcode aluExt b).isNone).length = 256 - (opcodeBytes aluExt).length := by
  have hsplit := List.length_eq_length_filter_add (l := allBytes) fun b => (decodeOpcode aluExt b).isNone
  simp only [Option.not_isNone] at hsplit
  have hall : allBytes.length = 256 := by rw [allBytes, List.length_map, List.length_range]
  rw [← (known_perm_opcodeBytes aluExt).length_eq, ← hall, hsplit, Nat.add_sub_cancel]

namespace Machine

/-- The fetch finds an unknown opcode before it reads any operand (rule R90). -/
theorem fetch_of_unknown {aluExt : Bool} {s : State} (hpc : s.pc.toNat < 256)
    (h : decodeOpcode aluExt (s.readCell s.pc.toNat) = none) :
    fetch aluExt s = .error (.unknownInstruction (s.readCell s.pc.toNat) s.pc) := by
  have hread : memRead s.pc.toNat s = .ok (s.readCell s.pc.toNat) := by
    simpa using memRead_of_inRange (addr := s.pc.toNat) s (by omega)
  simp only [fetch, hread, bind, Except.bind, h]
  rfl

theorem takeFault_faultedWith (c : FaultCause) (s : State) : FaultedWith c s (takeFault c s) :=
  ⟨takeFault_run c s, takeFault_cause c s, takeFault_trace c s⟩

/-- Settles O5: the unknown bytes are the complement of the list of opcode values, which gives their number as well;
at one of them the fetch raises. -/
theorem unknownOpcodesFault : Obligations.UnknownOpcodesFault := by
  refine ⟨fun aluExt b => ?_, ?_, ?_, ?_, ?_, fun aluExt s hrun hpc hunknown => ?_⟩
  · simp only [decodeOpcode_eq_none_iff, mem_opcodeBytes_iff, not_exists, not_and, ne_eq]
  · exact (length_unknown false).trans (by decide)
  · exact (length_unknown true).trans (by decide)
  · rintro b (rfl | rfl | rfl | rfl | rfl) <;> decide
  · decide
  · exact ⟨_, stepWith_of_fetch_error hrun (fetch_of_unknown hpc hunknown), takeFault_faultedWith _ s⟩

end Machine

end Sys2Proof
end

section
/-! Proofs of the family `41_system_and_data.md`: LDI (rule R131). -/

namespace Sys2Proof.Machine

/-! The completed effect of an instruction that writes one register. -/

/-- Frame of the registers of a register write (rule R20). -/
theorem sameRegistersBut_writeReg (s : State) (r : RegNum) (v : Byte) :
    SameRegistersBut [r] s (s.writeReg r v) := by
  intro q hq
  rw [readReg_writeReg, if_neg fun h => hq (List.mem_singleton.mpr h)]

/-- A register write and the advance of an opcode change that register and `pc` only (rules R20, R116). -/
theorem writesRegister_advance_writeReg {k : Opcode} {len : Nat} (hlen : advanceOf k = BitVec.ofNat 9 len)
    (s : State) (r : RegNum) (v : Byte) : WritesRegister s (advance k (s.writeReg r v)) r v len := by
  have hregs : SameRegistersBut [r] s (advance k (s.writeReg r v)) := fun q hq =>
    (readReg_advance k _ q).trans (sameRegistersBut_writeReg s r v q hq)
  have hpc : (advance k (s.writeReg r v)).pc = s.pc + BitVec.ofNat 9 len := by
    rw [advance_pc_of, hlen, writeReg_pc]
  exact ⟨by simp, hregs, fun a => by simp, ⟨by simp, by simp, by simp⟩, by simp, hpc⟩

/-! Operand reads past the end of memory (rules R56, R113). -/

/-- No opcode has more than two operand bytes (rules R80, R81). -/
theorem operandCount_toByte_le_two (k : Opcode) : operandCount k.toByte ≤ 2 := by
  cases k <;> decide

/-- The opcode fits and its operands do not: whichever operand runs past the last cell first has the address 256. -/
theorem fetch_of_operand_past_end {aluExt : Bool} {s : State} {k : Opcode} (hpc : s.pc.toNat < 256)
    (hk : decodeOpcode aluExt (s.readCell s.pc.toNat) = some k)
    (hend : 256 ≤ s.pc.toNat + operandCount (s.readCell s.pc.toNat)) :
    fetch aluExt s = .error (.addressFault (.memAddr 256)) := by
  have hread {n : Nat} (hn : n < 256) : memRead n s = .ok (s.readCell n) := by
    simpa using memRead_of_inRange (addr := n) s (by omega)
  have hraise : memRead 256 s = .error (.addressFault (.memAddr 256)) :=
    memRead_of_outOfRange s (.inr (Int.le_refl 256))
  have hle : operandCount (s.readCell s.pc.toNat) ≤ 2 := by
    obtain ⟨hbyte, -⟩ := decodeOpcode_some hk
    rw [← hbyte]
    exact operandCount_toByte_le_two k
  by_cases hlast : s.pc.toNat = 255
  · have hone : 1 ≤ operandCount (s.readCell s.pc.toNat) := by omega
    have haddr : (s.pc.toNat : Int) + 1 = 256 := by omega
    simp only [fetch, hread hpc, bind, Except.bind, hk, hone, haddr, hraise, if_true]
  · have htwo : operandCount (s.readCell s.pc.toNat) = 2 := by omega
    have hfirst : memRead ((s.pc.toNat : Int) + 1) s = .ok (s.readCell (s.pc.toNat + 1)) :=
      hread (n := s.pc.toNat + 1) (by omega)
    have haddr : (s.pc.toNat : Int) + 2 = 256 := by omega
    simp [fetch, hread hpc, bind, Except.bind, hk, htwo, hfirst, haddr, hraise]

/-- Settles O15: a legal LDI is one register write with the advance, and PRN then reads that register; an illegal
index stops it in the validation, and at 254 or 255 the fetch raises. -/
theorem ldiLoadsTheImmediate : Obligations.LdiLoadsTheImmediate := by
  refine ⟨fun a b => rfl, fun a b s ha => ?_, fun a b s ha => ?_, fun aluExt s hrun hpc hop => ?_⟩
  · have hwrites := writesRegister_advance_writeReg (k := .ldi) (len := 3) rfl s (reg a ha) b
    exact ⟨_, exec_ldi b s ha, hwrites, _, exec_prn _ ha, by simp⟩
  · exact ⟨_, conclude_bind_of_error (regIndex_of_ge ha), takeFault_faultedWith _ s⟩
  · have hk : decodeOpcode aluExt (s.readCell s.pc.toNat) = some .ldi := by
      rw [hop]
      exact decodeOpcode_toByte aluExt .ldi (Bool.or_true aluExt)
    have hcount : operandCount (s.readCell s.pc.toNat) = 2 := by
      rw [hop]
      decide
    have hfetch := fetch_of_operand_past_end (by omega) hk (by omega)
    exact ⟨_, stepWith_of_fetch_error hrun hfetch, takeFault_faultedWith _ s⟩

end Sys2Proof.Machine
end

section
/-! Proofs of the family `45_host_operations.md`: the status of a run (rule R204). A run keeps the good states, and a
good state that has ended reports its cause or has none. -/

namespace Sys2Proof.Machine

/-! What keeps a state good: one lemma per state operation. -/

namespace GoodState

variable {aluExt : Bool} {s : State}

theorem writeReg (hs : GoodState aluExt s) (r : RegNum) (v : Byte) : GoodState aluExt (s.writeReg r v) :=
  ⟨hs.memWf, hs.pcBound, hs.flLegal, hs.flAbsent, hs.reported, hs.causeLegal⟩

theorem incrementSp (hs : GoodState aluExt s) : GoodState aluExt (incrementSp s) :=
  hs.writeReg _ _

theorem pushed (hs : GoodState aluExt s) (v : Byte) : GoodState aluExt (pushed s v) := by
  have haddr : (s.readReg Config.sp).toNat - 1 < Config.memCells :=
    Nat.lt_of_le_of_lt (Nat.sub_le _ _) (s.readReg Config.sp).isLt
  exact ⟨Memory.wf_write v hs.memWf haddr, hs.pcBound, hs.flLegal, hs.flAbsent, hs.reported, hs.causeLegal⟩

theorem withPc (hs : GoodState aluExt s) {p : Pc} (hp : p.toNat ≤ 256) : GoodState aluExt { s with pc := p } :=
  ⟨hs.memWf, hp, hs.flLegal, hs.flAbsent, hs.reported, hs.causeLegal⟩

/-- A byte is an address, so `pc` may take its value (rules R182, R183). -/
theorem withPc_byte (hs : GoodState aluExt s) (b : Byte) : GoodState aluExt { s with pc := b.setWidth 9 } :=
  hs.withPc (by rw [BitVec.toNat_setWidth]; omega)

theorem withCompareFlags (hs : GoodState aluExt s) (hext : aluExt = true) (u v : Byte) :
    GoodState aluExt { s with fl := compareFlags u v } := by
  have hfl : compareFlags u v = 1 ∨ compareFlags u v = 2 ∨ compareFlags u v = 4 := by
    rcases Nat.lt_trichotomy u.toNat v.toNat with hlt | heq | hgt
    · exact .inr (.inr (by simp [compareFlags, hlt, Nat.not_lt_of_lt hlt, Nat.ne_of_lt hlt]))
    · exact .inl (by simp [compareFlags, heq])
    · exact .inr (.inl (by simp [compareFlags, hgt, Nat.not_lt_of_lt hgt, Nat.ne_of_gt hgt]))
  exact ⟨hs.memWf, hs.pcBound, .inr hfl, fun h => absurd (h.symm.trans hext) Bool.false_ne_true,
    hs.reported, hs.causeLegal⟩

/-- Outside `Faulted` there is no cause and no `Fault` event (rules R28, R226). -/
theorem cause_eq_none (hs : GoodState aluExt s) (hrun : s.run ≠ .faulted) :
    s.cause = none ∧ ∀ e ∈ s.trace, e.isFault = false := by
  have hrep := hs.reported
  rwa [FaultsReported, if_neg hrun] at hrep

/-- In `Faulted` there is a cause, and it is one the machine can produce (rules R28, R220). -/
theorem exists_legal_cause (hs : GoodState aluExt s) (hrun : s.run = .faulted) :
    ∃ c, s.cause = some c ∧ c.legal aluExt := by
  have hrep := hs.reported
  rw [FaultsReported, if_pos hrun] at hrep
  obtain ⟨c, -, hc, -, -⟩ := hrep
  exact ⟨c, hc, hs.causeLegal c hc⟩

/-- The run state may move among those with no fault (rules R27, R203, R130). -/
theorem withRun (hs : GoodState aluExt s) (hrun : s.run ≠ .faulted) {r : RunState} (hr : r ≠ .faulted) :
    GoodState aluExt { s with run := r } := by
  refine ⟨hs.memWf, hs.pcBound, hs.flLegal, hs.flAbsent, ?_, hs.causeLegal⟩
  rw [FaultsReported, if_neg hr]
  exact hs.cause_eq_none hrun

theorem emit (hs : GoodState aluExt s) (hrun : s.run ≠ .faulted) {e : Event} (he : e.isFault = false) :
    GoodState aluExt (emit e s) := by
  obtain ⟨hcause, htrace⟩ := hs.cause_eq_none hrun
  refine ⟨hs.memWf, hs.pcBound, hs.flLegal, hs.flAbsent, ?_, hs.causeLegal⟩
  rw [FaultsReported, emit_run, if_neg hrun]
  exact ⟨hcause, by simpa [or_imp, forall_and, he] using htrace⟩

theorem takeFault (hs : GoodState aluExt s) (hrun : s.run ≠ .faulted) {c : FaultCause} (hc : c.legal aluExt) :
    GoodState aluExt (takeFault c s) := by
  obtain ⟨-, htrace⟩ := hs.cause_eq_none hrun
  refine ⟨hs.memWf, hs.pcBound, hs.flLegal, hs.flAbsent, ?_, ?_⟩
  · rw [FaultsReported, if_pos (takeFault_run c s)]
    exact ⟨c, s.trace, rfl, rfl, htrace⟩
  · rintro d ⟨⟩
    exact hc

/-- The advance keeps a state good where the instruction ends inside memory, or sets `pc` itself. -/
theorem advance (hs : GoodState aluExt s) {k : Opcode}
    (hend : setsPc k.toByte = false → s.pc.toNat + 1 + operandCount k.toByte ≤ 256) :
    GoodState aluExt (advance k s) := by
  rw [Machine.advance]
  split
  · exact hs
  · rename_i hk
    have hend := hend (Bool.eq_false_of_not_eq_true hk)
    refine hs.withPc ?_
    rw [BitVec.toNat_add, BitVec.toNat_ofNat]
    omega

end GoodState

/-! The execute phase. -/

/-- The outcome is the advance of a good state, in which `pc` is still that of `s` where the opcode does not set it. -/
def CompletesGood (aluExt : Bool) (k : Opcode) (s : State) (o : Outcome) : Prop :=
  ∃ u, o = .next (advance k u) ∧ GoodState aluExt u ∧ (setsPc k.toByte = false → u.pc = s.pc)

section
variable {aluExt : Bool} {k : Opcode} {s : State}

theorem completesGood_binaryOp (hs : GoodState aluExt s) {f : Byte → Byte → Byte} {a b : Byte}
    (h : ∀ x ∈ [a, b], x.toNat < 8) : CompletesGood aluExt k s (conclude k s (binaryOp f a b s)) := by
  obtain ⟨ha, hb⟩ := forall_mem_pair_lt_iff.mp h
  rw [binaryOp_of_lt f s ha hb]
  exact ⟨_, conclude_ok k s _, hs.writeReg _ _, fun _ => rfl⟩

theorem completesGood_divisionOp (hs : GoodState aluExt s) (hrun : s.run ≠ .faulted) {op : DivOp}
    {f : Byte → Byte → Byte} {a b : Byte} (h : ∀ x ∈ [a, b], x.toNat < 8) :
    CompletesGood aluExt k s (conclude k s (divisionOp op f a b s)) := by
  obtain ⟨ha, hb⟩ := forall_mem_pair_lt_iff.mp h
  rw [divisionOp_of_lt op f s ha hb]
  refine ⟨_, conclude_ok k s _, ?_, fun _ => ?_⟩
  · split
    · exact hs.emit hrun rfl
    · exact hs.writeReg _ _
  · split <;> rfl

/-- An instruction the machine has, with legal register operands, completes in a good state, or takes the fault of a
push with the stack pointer at 0. -/
theorem exec_of_operandsLegal_of_good (hs : GoodState aluExt s) (hrun : s.run ≠ .faulted)
    (hk : (aluExt || !k.needsAluExt) = true) {a b : Byte} (hlegal : (k.withOperands a b).operandsLegal = true) :
    CompletesGood aluExt k s (exec (k.withOperands a b) s) ∨
      exec (k.withOperands a b) s = .next (takeFault (.addressFault (.memAddr (-1))) s) := by
  have h := (operandsLegal_iff _).mp hlegal
  cases k with
  | hlt => exact .inl ⟨_, exec_hlt s, hs.withRun hrun (by decide), fun _ => rfl⟩
  | ldi => exact .inl ⟨_, exec_ldi b s (h a List.mem_cons_self), hs.writeReg _ _, fun _ => rfl⟩
  | prn => exact .inl ⟨_, exec_prn s (h a List.mem_cons_self), hs.emit hrun rfl, fun _ => rfl⟩
  | not => exact .inl ⟨_, exec_not s (h a List.mem_cons_self), hs.writeReg _ _, fun _ => rfl⟩
  | pop => exact .inl ⟨_, exec_pop s (h a List.mem_cons_self), (hs.writeReg _ _).incrementSp, fun _ => rfl⟩
  | ret => exact .inl ⟨_, exec_ret s, hs.incrementSp.withPc_byte _, fun hset => absurd hset (by decide)⟩
  | push =>
    have ha := h a List.mem_cons_self
    by_cases hsp : s.readReg Config.sp = 0
    · exact .inr (exec_push_of_sp_zero ha hsp)
    · exact .inl ⟨_, exec_push s ha hsp, hs.pushed _, fun _ => rfl⟩
  | call =>
    have ha := h a List.mem_cons_self
    by_cases hsp : s.readReg Config.sp = 0
    · exact .inr (exec_call_of_sp_zero ha hsp)
    · exact .inl ⟨_, exec_call s ha hsp, (hs.pushed _).withPc_byte _, fun hset => absurd hset (by decide)⟩
  | mul | add | sub | and | or | xor => exact .inl (completesGood_binaryOp hs h)
  | div | mod => exact .inl (completesGood_divisionOp hs hrun h)
  | cmp =>
    obtain ⟨ha, hb⟩ := forall_mem_pair_lt_iff.mp h
    exact .inl ⟨_, exec_cmp s ha hb, hs.withCompareFlags (by simpa [Opcode.needsAluExt] using hk) _ _, fun _ => rfl⟩

/-- An instruction the machine has, whose bytes lie inside memory, leads from a good state to a good state. -/
theorem exec_keeps_good (hs : GoodState aluExt s) (hrun : s.run ≠ .faulted)
    (hk : (aluExt || !k.needsAluExt) = true) (hend : s.pc.toNat + 1 + operandCount k.toByte ≤ 256) {a b : Byte}
    {t : State} (h : exec (k.withOperands a b) s = .next t) : GoodState aluExt t := by
  cases hlegal : (k.withOperands a b).operandsLegal with
  | false =>
    obtain ⟨c, hc⟩ := exists_firstIllegal_of_not_legal hlegal
    obtain ⟨-, hge⟩ := firstIllegal_mem_and_ge hc
    cases (exec_of_firstIllegal s hc).symm.trans h
    exact hs.takeFault hrun hge
  | true =>
    rcases exec_of_operandsLegal_of_good hs hrun hk hlegal with ⟨u, hu, hgood, hpc⟩ | hf
    · cases hu.symm.trans h
      exact hgood.advance fun hset => by rw [hpc hset]; exact hend
    · cases hf.symm.trans h
      exact hs.takeFault hrun (.inl rfl)

/-! The fetch. -/

/-- An instruction whose bytes all lie inside memory is fetched. -/
theorem fetch_of_fits (hpc : s.pc.toNat < 256) (hk : decodeOpcode aluExt (s.readCell s.pc.toNat) = some k)
    (hend : s.pc.toNat + operandCount (s.readCell s.pc.toNat) < 256) :
    ∃ a b, fetch aluExt s = .ok (k.withOperands a b) := by
  have hread : memRead s.pc.toNat s = .ok (s.readCell s.pc.toNat) := by
    simpa using memRead_of_inRange (addr := s.pc.toNat) s (by omega)
  simp only [fetch, hread, bind, Except.bind, hk]
  by_cases hone : operandCount (s.readCell s.pc.toNat) ≥ 1
  · rw [if_pos hone, memRead_of_inRange s (by omega)]
    by_cases htwo : operandCount (s.readCell s.pc.toNat) = 2
    · simp only [if_pos htwo]
      rw [memRead_of_inRange s (by omega)]
      exact ⟨_, _, rfl⟩
    · simp only [if_neg htwo]
      exact ⟨_, _, rfl⟩
  · have hnottwo : operandCount (s.readCell s.pc.toNat) ≠ 2 := by omega
    simp only [if_neg hone, if_neg hnottwo]
    exact ⟨_, _, rfl⟩

/-- A fetch at 256 raises (rule R111). -/
theorem fetch_of_pc_past_end (hpc : s.pc.toNat = 256) :
    fetch aluExt s = .error (.addressFault (.memAddr 256)) := by
  have hraise : memRead 256 s = .error (.addressFault (.memAddr 256)) :=
    memRead_of_outOfRange s (.inr (Int.le_refl 256))
  simp only [fetch, hpc, Nat.cast_ofNat, hraise, bind, Except.bind]

/-- Every way a fetch at `pc` up to 256 can end (rules R110 to R113, R227): a fault with a cause the machine can
produce, or an instruction it has, with all its bytes inside memory. -/
theorem fetch_cases (hpc : s.pc.toNat ≤ 256) :
    (∃ c, fetch aluExt s = .error c ∧ c.legal aluExt) ∨
    (∃ (k : Opcode) (a b : Byte), fetch aluExt s = .ok (k.withOperands a b) ∧
      (aluExt || !k.needsAluExt) = true ∧ s.pc.toNat + 1 + operandCount k.toByte ≤ 256) := by
  rcases Nat.lt_or_eq_of_le hpc with hlt | hlast
  · cases hk : decodeOpcode aluExt (s.readCell s.pc.toNat) with
    | none => exact .inl ⟨_, fetch_of_unknown hlt hk, hk, hlt⟩
    | some k =>
      obtain ⟨hbyte, hpresent⟩ := decodeOpcode_some hk
      by_cases hend : s.pc.toNat + operandCount (s.readCell s.pc.toNat) < 256
      · obtain ⟨a, b, hfetch⟩ := fetch_of_fits hlt hk hend
        rw [← hbyte] at hend
        exact .inr ⟨k, a, b, hfetch, hpresent, by omega⟩
      · exact .inl ⟨_, fetch_of_operand_past_end hlt hk (by omega), .inr rfl⟩
  · exact .inl ⟨_, fetch_of_pc_past_end hlast, .inr rfl⟩

end

/-! The step, the run loop and `run()`. -/

section
variable {aluExt : Bool} {s : State}

theorem stepWith_keeps_good {t : State} (hs : GoodState aluExt s) (h : stepWith aluExt s = .next t) :
    GoodState aluExt t := by
  obtain ⟨hrun, h⟩ := stepWith_next h
  have hrun : s.run ≠ .faulted := by simp [hrun]
  rcases fetch_cases (aluExt := aluExt) hs.pcBound with ⟨c, hfetch, hc⟩ | ⟨k, a, b, hfetch, hk, hend⟩
  · rcases h with ⟨i, hi, -⟩ | ⟨d, hd, rfl⟩
    · cases hfetch.symm.trans hi
    · cases hfetch.symm.trans hd
      exact hs.takeFault hrun hc
  · rcases h with ⟨i, hi, hexec⟩ | ⟨d, hd, -⟩
    · cases hfetch.symm.trans hi
      exact exec_keeps_good hs hrun hk hend hexec
    · cases hfetch.symm.trans hd

theorem runLoop_keeps_good (n : Nat) (hs : GoodState aluExt s) : GoodState aluExt (runLoop aluExt n s) := by
  induction n generalizing s with
  | zero => exact hs
  | succ n ih =>
    rw [runLoop]
    cases hstep : stepWith aluExt s with
    | next t => exact ih (stepWith_keeps_good hs hstep)
    | fault _ => exact hs
    | refused _ => exact hs

/-- A status is given only when the run has ended (rule R121), and is the pair of rule R204. -/
theorem status_eq_some_iff {st : RunState × Option FaultCause} :
    s.status = some st ↔ (s.run = .halted ∨ s.run = .faulted) ∧ st = (s.run, s.cause) := by
  have hended : s.ended = true ↔ s.run = .halted ∨ s.run = .faulted := by simp [State.ended]
  rw [State.status, Option.ite_none_right_eq_some, hended, Option.some.injEq, eq_comm (a := (s.run, s.cause))]

/-- `run()` that returns began in `PreRun`, and gives the state the loop ended in with its status (rule R203). -/
theorem hostRun_eq_some {n : Nat} {u : State} {st : RunState × Option FaultCause}
    (h : hostRun aluExt n s = .ok (some (u, st))) :
    s.run = .preRun ∧ u = runLoop aluExt n { s with run := .running } ∧ u.status = some st := by
  by_cases hrun : s.run = .preRun
  · have hstart : hostStart s = .ok { s with run := .running } := if_pos hrun
    simp only [hostRun, hstart, bind, Except.bind, pure, Except.pure, Except.ok.injEq,
      Option.map_eq_some_iff, Prod.mk.injEq] at h
    obtain ⟨_, hstatus, rfl, rfl⟩ := h
    exact ⟨hrun, rfl, hstatus⟩
  · have hstart : hostStart s = .error .wrongRunState := if_neg hrun
    simp [hostRun, hstart, bind, Except.bind] at h

end

/-- Settles O48: the run keeps the state good, and a good state that halted has no cause while one that faulted has a
legal one. -/
theorem runReturnsItsStatus : Obligations.RunReturnsItsStatus := by
  intro aluExt n s u st hs h
  obtain ⟨hpre, rfl, hstatus⟩ := hostRun_eq_some h
  obtain ⟨hended, rfl⟩ := status_eq_some_iff.mp hstatus
  have hstarted : GoodState aluExt { s with run := .running } := hs.withRun (by simp [hpre]) (by decide)
  have hgood := runLoop_keeps_good n hstarted
  refine ⟨rfl, ?_⟩
  rcases hended with hrun | hrun
  · obtain ⟨hcause, -⟩ := hgood.cause_eq_none (by simp [hrun])
    exact .inl (by rw [hrun, hcause])
  · obtain ⟨c, hcause, hc⟩ := hgood.exists_legal_cause hrun
    exact .inr ⟨c, by rw [hrun, hcause], hc⟩

end Sys2Proof.Machine
end

section
/-! Proofs of the family `60_exceptions.md`: division by zero (rule R223) and the report of a fault (rule R226). -/

namespace Sys2Proof.Machine

/-! Division by zero. -/

/-- An event and the advance of an opcode change the trace and `pc` only (rules R31, R116). -/
theorem writesTrace_advance_emit {k : Opcode} {len : Nat} (hlen : advanceOf k = BitVec.ofNat 9 len)
    (e : Event) (s : State) : WritesTrace s (advance k (emit e s)) (s.trace ++ [e]) len := by
  have hpc : (advance k (emit e s)).pc = s.pc + BitVec.ofNat 9 len := by
    rw [advance_pc_of, hlen, emit_pc]
  exact ⟨by simp, fun r _ => by simp, fun a => by simp, ⟨by simp, by simp, by simp⟩, hpc⟩

/-- Settles O19: with a zero divisor DIV and MOD are one event and the advance. -/
theorem divisionByZeroIsNoFault : Obligations.DivisionByZeroIsNoFault := by
  intro a b s ha hb hzero
  have hdiv := exec_div s ha hb
  have hmod := exec_mod s ha hb
  rw [if_pos hzero] at hdiv hmod
  exact ⟨⟨_, s.pc, hdiv, writesTrace_advance_emit rfl _ s⟩, ⟨_, s.pc, hmod, writesTrace_advance_emit rfl _ s⟩⟩

/-! The run state and the cause after the execute phase: only taking a fault touches them, but for HLT's run state. -/

/-- The outcome is a next state that is not faulted and has the cause of `s`. -/
def KeepsCause (s : State) (o : Outcome) : Prop :=
  ∃ t, o = .next t ∧ t.run ≠ .faulted ∧ t.cause = s.cause

section
variable {s : State} {k : Opcode}

theorem keepsCause_of_advance {u : State} {o : Outcome} (h : o = .next (advance k u)) (hrun : u.run ≠ .faulted)
    (hcause : u.cause = s.cause) : KeepsCause s o :=
  ⟨advance k u, h, by rwa [advance_run], by rwa [advance_cause]⟩

theorem keepsCause_binaryOp (hrun : s.run ≠ .faulted) {f : Byte → Byte → Byte} {a b : Byte}
    (h : ∀ x ∈ [a, b], x.toNat < 8) : KeepsCause s (conclude k s (binaryOp f a b s)) := by
  obtain ⟨ha, hb⟩ := forall_mem_pair_lt_iff.mp h
  rw [binaryOp_of_lt f s ha hb, conclude_ok]
  exact keepsCause_of_advance rfl hrun rfl

theorem keepsCause_divisionOp (hrun : s.run ≠ .faulted) {op : DivOp} {f : Byte → Byte → Byte} {a b : Byte}
    (h : ∀ x ∈ [a, b], x.toNat < 8) : KeepsCause s (conclude k s (divisionOp op f a b s)) := by
  obtain ⟨ha, hb⟩ := forall_mem_pair_lt_iff.mp h
  rw [divisionOp_of_lt op f s ha hb, conclude_ok]
  split
  · exact keepsCause_of_advance rfl hrun rfl
  · exact keepsCause_of_advance rfl hrun rfl

/-- An instruction with legal register operands keeps the cause and is not faulted, or takes the fault of a push with
the stack pointer at 0. -/
theorem exec_keepsCause_of_operandsLegal {i : Instr} (hrun : s.run ≠ .faulted) (hi : i.operandsLegal = true) :
    KeepsCause s (exec i s) ∨ exec i s = .next (takeFault (.addressFault (.memAddr (-1))) s) := by
  have h := (operandsLegal_iff i).mp hi
  cases i with
  | hlt => exact .inl (keepsCause_of_advance (exec_hlt s) (by simp) rfl)
  | ret => exact .inl (keepsCause_of_advance (exec_ret s) hrun rfl)
  | ldi a b => exact .inl (keepsCause_of_advance (exec_ldi b s (h a List.mem_cons_self)) hrun rfl)
  | prn a => exact .inl (keepsCause_of_advance (exec_prn s (h a List.mem_cons_self)) hrun rfl)
  | not a => exact .inl (keepsCause_of_advance (exec_not s (h a List.mem_cons_self)) hrun rfl)
  | pop a => exact .inl (keepsCause_of_advance (exec_pop s (h a List.mem_cons_self)) hrun rfl)
  | push a =>
    have ha := h a List.mem_cons_self
    by_cases hsp : s.readReg Config.sp = 0
    · exact .inr (exec_push_of_sp_zero ha hsp)
    · exact .inl (keepsCause_of_advance (exec_push s ha hsp) hrun rfl)
  | call a =>
    have ha := h a List.mem_cons_self
    by_cases hsp : s.readReg Config.sp = 0
    · exact .inr (exec_call_of_sp_zero ha hsp)
    · exact .inl (keepsCause_of_advance (exec_call s ha hsp) hrun rfl)
  | mul a b | add a b | sub a b | and a b | or a b | xor a b => exact .inl (keepsCause_binaryOp hrun h)
  | div a b | mod a b => exact .inl (keepsCause_divisionOp hrun h)
  | cmp a b =>
    obtain ⟨ha, hb⟩ := forall_mem_pair_lt_iff.mp h
    exact .inl (keepsCause_of_advance (exec_cmp s ha hb) hrun rfl)

end

/-! What a step reports. -/

/-- `t` is not faulted, has the cause of `s`, and appends no `Fault` to its trace. -/
def ReportsNoFault (s t : State) : Prop :=
  t.run ≠ .faulted ∧ t.cause = s.cause ∧ ∃ es, t.trace = s.trace ++ es ∧ ∀ e ∈ es, e.isFault = false

section
variable {aluExt : Bool} {s t : State}

theorem reportsNoFault_of_completes {o : Outcome} (ho : o = .next t) (hc : CompletesFrom s o)
    (hk : KeepsCause s o) : ReportsNoFault s t := by
  subst ho
  obtain ⟨_, es, ⟨⟩, htrace, hes⟩ := hc
  obtain ⟨_, ⟨⟩, hrun, hcause⟩ := hk
  exact ⟨hrun, hcause, es, htrace, hes⟩

/-- Every way an instruction can report: it takes a fault in the state it began in, or reports none. -/
theorem exec_reports {i : Instr} (hrun : s.run ≠ .faulted) (h : exec i s = .next t) :
    (∃ c, t = takeFault c s) ∨ ReportsNoFault s t := by
  have of_fault {c : FaultCause} (hf : exec i s = .next (takeFault c s)) : ∃ c, t = takeFault c s := by
    cases h.symm.trans hf
    exact ⟨c, rfl⟩
  cases hi : i.operandsLegal with
  | false =>
    obtain ⟨b, hb⟩ := exists_firstIllegal_of_not_legal hi
    exact .inl (of_fault (exec_of_firstIllegal s hb))
  | true =>
    rcases exec_of_operandsLegal s hi with hc | hf
    · rcases exec_keepsCause_of_operandsLegal hrun hi with hk | hf
      · exact .inr (reportsNoFault_of_completes h hc hk)
      · exact .inl (of_fault hf)
    · exact .inl (of_fault hf)

/-- Every way a step can report: as its instruction does, or by the fault its fetch raised. -/
theorem stepWith_reports (h : stepWith aluExt s = .next t) : (∃ c, t = takeFault c s) ∨ ReportsNoFault s t := by
  obtain ⟨hrun, ⟨i, -, hexec⟩ | ⟨c, -, ht⟩⟩ := stepWith_next h
  · exact exec_reports (by simp [hrun]) hexec
  · exact .inl ⟨c, ht⟩

/-! The agreement of trace and run state. -/

theorem faultsReported_iff_of_faulted (hrun : s.run = .faulted) :
    FaultsReported s ↔ ∃ c es, s.cause = some c ∧ s.trace = es ++ [.fault c] ∧ ∀ e ∈ es, e.isFault = false := by
  rw [FaultsReported, if_pos hrun]

theorem faultsReported_iff_of_not_faulted (hrun : s.run ≠ .faulted) :
    FaultsReported s ↔ s.cause = none ∧ ∀ e ∈ s.trace, e.isFault = false := by
  rw [FaultsReported, if_neg hrun]

theorem faultsReported_takeFault (c : FaultCause) (htrace : ∀ e ∈ s.trace, e.isFault = false) :
    FaultsReported (takeFault c s) :=
  (faultsReported_iff_of_faulted rfl).mpr ⟨c, s.trace, rfl, rfl, htrace⟩

/-- The agreement is an invariant: a step begins in `Running`, where the trace has no `Fault` event. -/
theorem stepWith_keeps_faultsReported (hs : FaultsReported s) (h : stepWith aluExt s = .next t) :
    FaultsReported t := by
  obtain ⟨hrunning, -⟩ := stepWith_next h
  obtain ⟨hnone, hclean⟩ := (faultsReported_iff_of_not_faulted (by simp [hrunning])).mp hs
  rcases stepWith_reports h with ⟨c, rfl⟩ | ⟨hrun, hcause, es, htrace, hes⟩
  · exact faultsReported_takeFault c hclean
  · refine (faultsReported_iff_of_not_faulted hrun).mpr ⟨hcause.trans hnone, ?_⟩
    rw [htrace]
    exact List.forall_mem_append.mpr ⟨hclean, hes⟩

end

/-- Settles O39: a step that ends in `Faulted` took a fault, since otherwise it reports none; the agreement of trace
and run state is an invariant, and says what the trace of a faulted and of a halted machine is. -/
theorem everyFaultIsReported : Obligations.EveryFaultIsReported := by
  refine ⟨fun aluExt s t h hfaulted => ?_, fun aluExt s t hs h => stepWith_keeps_faultsReported hs h, ?_,
    fun s hs hrun => ?_, fun s hs hrun => ?_⟩
  · rcases stepWith_reports h with ⟨c, rfl⟩ | ⟨hrun, -, -⟩
    · exact ⟨c, takeFault_faultedWith c s⟩
    · exact absurd hfaulted hrun
  · exact (faultsReported_iff_of_not_faulted (by decide)).mpr ⟨rfl, fun e he => absurd he List.not_mem_nil⟩
  · obtain ⟨c, es, -, htrace, -⟩ := (faultsReported_iff_of_faulted hrun).mp hs
    exact ⟨c, es, htrace⟩
  · obtain ⟨-, hclean⟩ := (faultsReported_iff_of_not_faulted (by simp [hrun])).mp hs
    exact hclean

end Sys2Proof.Machine
end

section
/-! Proofs of the family `30_encoding.md`: decode and encode are inverse (rules R80 to R94), the table words, the
fields of the opcode byte. -/

namespace Sys2Proof

/-! The opcode of an instruction, and an instruction as its opcode with operand bytes. -/

/-- The row of rule R86 an instruction belongs to. -/
def Instr.opcode : Instr → Opcode
  | .hlt => .hlt
  | .ldi _ _ => .ldi
  | .prn _ => .prn
  | .mul _ _ => .mul
  | .add _ _ => .add
  | .sub _ _ => .sub
  | .div _ _ => .div
  | .mod _ _ => .mod
  | .push _ => .push
  | .pop _ => .pop
  | .call _ => .call
  | .ret => .ret
  | .and _ _ => .and
  | .or _ _ => .or
  | .xor _ _ => .xor
  | .not _ => .not
  | .cmp _ _ => .cmp

/-- Every instruction is its opcode with some operand bytes. -/
theorem Instr.eq_withOperands (i : Instr) : ∃ a b, i = i.opcode.withOperands a b := by
  cases i with
  | hlt | ret => exact ⟨0, 0, rfl⟩
  | prn a | push a | pop a | call a | not a => exact ⟨a, 0, rfl⟩
  | ldi a b | mul a b | add a b | sub a b | div a b | mod a b | and a b | or a b | xor a b | cmp a b =>
    exact ⟨a, b, rfl⟩

namespace Opcode

@[simp] theorem needsAluExt_withOperands (k : Opcode) (a b : Byte) :
    (k.withOperands a b).needsAluExt = k.needsAluExt := by
  cases k <;> rfl

/-- The encoding keeps as many operand bytes as the opcode counts (rule R80). -/
theorem encode_withOperands (k : Opcode) (a b : Byte) :
    encode (k.withOperands a b) = k.toByte :: [a, b].take (operandCount k.toByte) := by
  cases k <;> rfl

/-- Operand bytes past the count are not looked at (rule R80). -/
theorem withOperands_of_count_zero {k : Opcode} (h : operandCount k.toByte = 0) (a b : Byte) :
    k.withOperands a b = k.withOperands 0 0 := by
  cases k with
  | hlt | ret => rfl
  | ldi | prn | mul | add | sub | div | mod | push | pop | call | and | or | xor | not | cmp =>
    exact absurd h (by decide)

theorem withOperands_of_count_one {k : Opcode} (h : operandCount k.toByte = 1) (a b : Byte) :
    k.withOperands a b = k.withOperands a 0 := by
  cases k with
  | prn | push | pop | call | not => rfl
  | hlt | ret | ldi | mul | add | sub | div | mod | and | or | xor | cmp => exact absurd h (by decide)

end Opcode

/-- The encoding begins with the opcode byte, which counts the bytes after it (rules R80, R81). -/
theorem exists_encode_eq (i : Instr) :
    ∃ operands, encode i = i.opcode.toByte :: operands ∧ operands.length = operandCount i.opcode.toByte := by
  obtain ⟨a, b, h⟩ := i.eq_withOperands
  refine ⟨_, (congrArg encode h).trans (Opcode.encode_withOperands i.opcode a b), ?_⟩
  rw [List.length_take]
  exact Nat.min_eq_left (Machine.operandCount_toByte_le_two i.opcode)

/-- An opcode counts 0, 1 or 2 operand bytes (rules R80, R81). -/
theorem operandCount_cases (k : Opcode) :
    operandCount k.toByte = 0 ∨ operandCount k.toByte = 1 ∨ operandCount k.toByte = 2 := by
  have := Machine.operandCount_toByte_le_two k
  omega

/-! What `decode` answers, by its first byte. -/

section
variable {aluExt : Bool} {ir : Byte} {k : Opcode}

theorem decode_of_unknown (h : decodeOpcode aluExt ir = none) (rest : List Byte) :
    decode aluExt (ir :: rest) = .error (.unknownOpcode ir) := by
  simp only [decode, h]

theorem decode_of_count_zero (hk : decodeOpcode aluExt ir = some k) (hn : operandCount ir = 0) (rest : List Byte) :
    decode aluExt (ir :: rest) = .ok (k.withOperands 0 0, rest) := by
  simp only [decode, hk, hn]

theorem decode_of_count_one (hk : decodeOpcode aluExt ir = some k) (hn : operandCount ir = 1) (a : Byte)
    (rest : List Byte) : decode aluExt (ir :: a :: rest) = .ok (k.withOperands a 0, rest) := by
  simp only [decode, hk, hn]

theorem decode_of_count_two (hk : decodeOpcode aluExt ir = some k) (hn : operandCount ir = 2) (a b : Byte)
    (rest : List Byte) : decode aluExt (ir :: a :: b :: rest) = .ok (k.withOperands a b, rest) := by
  simp only [decode, hk, hn]

/-- The bytes of an opcode the machine has, followed by anything, decode to that opcode with its operands. -/
theorem decode_withOperands (hk : (aluExt || !k.needsAluExt) = true) (a b : Byte) (rest : List Byte) :
    decode aluExt (encode (k.withOperands a b) ++ rest) = .ok (k.withOperands a b, rest) := by
  have hop := Machine.decodeOpcode_toByte aluExt k hk
  rw [Opcode.encode_withOperands]
  rcases operandCount_cases k with hn | hn | hn
  · rw [Opcode.withOperands_of_count_zero hn a b, hn]
    exact decode_of_count_zero hop hn rest
  · rw [Opcode.withOperands_of_count_one hn a b, hn]
    exact decode_of_count_one hop hn a rest
  · rw [hn]
    exact decode_of_count_two hop hn a b rest

/-- Rule R94 then rule R80: an instruction the machine has is read back from its bytes. -/
theorem decode_encode {i : Instr} (hi : i.presentIn aluExt = true) (rest : List Byte) :
    decode aluExt (encode i ++ rest) = .ok (i, rest) := by
  obtain ⟨a, b, h⟩ := i.eq_withOperands
  rw [h] at hi ⊢
  exact decode_withOperands (by simpa [Instr.presentIn] using hi) a b rest

/-- An opcode with too few bytes after it lacks an operand (rules R56, R113). -/
theorem decode_of_missing (hk : decodeOpcode aluExt ir = some k) {bytes : List Byte}
    (h : bytes.length < operandCount ir) : decode aluExt (ir :: bytes) = .error (.missingOperand ir) := by
  obtain ⟨rfl, -⟩ := Machine.decodeOpcode_some hk
  rcases operandCount_cases k with hn | hn | hn
  · exact absurd (hn ▸ h) (Nat.not_lt_zero _)
  · match bytes with
    | [] => simp only [decode, hk, hn]
    | _ :: _ => simp [hn] at h
  · match bytes with
    | [] | [_] => simp only [decode, hk, hn]
    | _ :: _ :: _ =>
      simp only [List.length_cons, hn] at h
      omega

/-- Every way the bytes after a known opcode can decode: as many of them as it counts are there, or some are missing. -/
theorem decode_known_cases (hk : decodeOpcode aluExt ir = some k) (bytes : List Byte) :
    (∃ a b rest, ir :: bytes = encode (k.withOperands a b) ++ rest ∧
      decode aluExt (ir :: bytes) = .ok (k.withOperands a b, rest)) ∨
    decode aluExt (ir :: bytes) = .error (.missingOperand ir) := by
  obtain ⟨rfl, -⟩ := Machine.decodeOpcode_some hk
  rcases operandCount_cases k with hn | hn | hn
  · exact .inl ⟨0, 0, bytes, by rw [Opcode.encode_withOperands, hn]; rfl, decode_of_count_zero hk hn bytes⟩
  · match bytes with
    | a :: rest =>
      exact .inl ⟨a, 0, rest, by rw [Opcode.encode_withOperands, hn]; rfl, decode_of_count_one hk hn a rest⟩
    | [] => exact .inr (decode_of_missing hk (by simp [hn]))
  · match bytes with
    | a :: b :: rest =>
      exact .inl ⟨a, b, rest, by rw [Opcode.encode_withOperands, hn]; rfl, decode_of_count_two hk hn a b rest⟩
    | [] => exact .inr (decode_of_missing hk (by simp [hn]))
    | [_] => exact .inr (decode_of_missing hk (by simp [hn]))

/-- A byte sequence that decodes is the encoding of what it decodes to, followed by the rest (rules R80, R88). -/
theorem eq_encode_of_decode {bytes rest : List Byte} {i : Instr} (h : decode aluExt bytes = .ok (i, rest)) :
    bytes = encode i ++ rest ∧ i.presentIn aluExt = true := by
  match bytes with
  | [] => cases h
  | ir :: bytes =>
    cases hk : decodeOpcode aluExt ir with
    | none => cases (decode_of_unknown hk bytes).symm.trans h
    | some k =>
      rcases decode_known_cases hk bytes with ⟨a, b, rest', hbytes, hdec⟩ | hdec
      · cases hdec.symm.trans h
        obtain ⟨-, hpresent⟩ := Machine.decodeOpcode_some hk
        exact ⟨hbytes, by simpa [Instr.presentIn] using hpresent⟩
      · cases hdec.symm.trans h

end

/-- Settles O2: an instruction is its opcode with operand bytes, and `decode` takes as many bytes as the opcode counts,
which are those `encode` wrote. -/
theorem decodeInvertsEncode : Obligations.DecodeInvertsEncode :=
  ⟨fun _ _ rest hi => decode_encode hi rest, fun _ _ _ _ h => eq_encode_of_decode h⟩

/-! Table words. -/

/-- A word's bytes are read back from it, least significant first, whatever follows them. -/
theorem tableBytes_wordOf {bytes : List Byte} (h : bytes.length ≤ 3) :
    ∃ rest, tableBytes (8 * bytes.length) (Machine.wordOf bytes) = bytes ++ rest := by
  have byte_eq {n : Nat} {b : Byte} (hn : n % 256 = b.toNat) : BitVec.ofNat 8 n = b :=
    BitVec.eq_of_toNat_eq (by rw [BitVec.toNat_ofNat]; exact hn)
  match bytes with
  | [] => exact ⟨_, rfl⟩
  | [a] =>
    refine ⟨_, List.cons_eq_cons.mpr ⟨byte_eq ?_, rfl⟩⟩
    simp only [Machine.wordOf, List.length]
    omega
  | [a, b] =>
    refine ⟨_, List.cons_eq_cons.mpr ⟨byte_eq ?_, List.cons_eq_cons.mpr ⟨byte_eq ?_, rfl⟩⟩⟩ <;>
      simp only [Machine.wordOf, List.length] <;> omega
  | [a, b, c] =>
    refine ⟨[], List.cons_eq_cons.mpr ⟨byte_eq ?_, List.cons_eq_cons.mpr ⟨byte_eq ?_,
      List.cons_eq_cons.mpr ⟨byte_eq ?_, rfl⟩⟩⟩⟩ <;>
      simp only [Machine.wordOf, List.length] <;> omega
  | _ :: _ :: _ :: _ :: _ =>
    simp only [List.length_cons] at h
    omega

/-- Settles O3: the word's bytes begin with the encoding, which decodes to the instruction whatever follows it. -/
theorem tableWordDecodesToItsInstruction : Obligations.TableWordDecodesToItsInstruction := by
  intro i
  obtain ⟨operands, hi, hlen⟩ := exists_encode_eq i
  have hle := Machine.operandCount_toByte_le_two i.opcode
  have hthree : (encode i).length ≤ 3 := by
    rw [hi, List.length_cons, hlen]
    omega
  obtain ⟨rest, hrest⟩ := tableBytes_wordOf hthree
  rw [decodeTableWord, hrest, decode_encode (Bool.true_or _)]

/-! The fields of the opcode byte. -/

/-- Bit 4 marks CALL and RET alone (rule R81). -/
theorem setsPc_opcode_iff (i : Instr) : setsPc i.opcode.toByte = true ↔ (i = .ret ∨ ∃ a, i = .call a) := by
  cases i with
  | ret => exact iff_of_true (show setsPc Opcode.ret.toByte = true by decide) (.inl rfl)
  | call a => exact iff_of_true (show setsPc Opcode.call.toByte = true by decide) (.inr ⟨a, rfl⟩)
  | hlt | ldi | prn | mul | add | sub | div | mod | push | pop | and | or | xor | not | cmp =>
    exact iff_of_false (by simp only [Instr.opcode]; decide) (by rintro (h | ⟨a, h⟩) <;> cases h)

/-- Settles O4: both fields are read off the opcode byte, the first byte of the encoding. -/
theorem opcodeBitsGiveLengthAndPcSetting : Obligations.OpcodeBitsGiveLengthAndPcSetting := by
  intro i
  obtain ⟨operands, hi, hlen⟩ := exists_encode_eq i
  exact ⟨_, operands, hi, hlen, setsPc_opcode_iff i⟩

/-- Settles O1: each word is the encoding of its instruction. -/
theorem writtenOutWordsDecode : Obligations.WrittenOutWordsDecode :=
  ⟨decode_encode (i := .ldi 0 8) rfl [], decode_encode (i := .add 0 1) rfl [], decode_encode (i := .prn 0) rfl [],
    decode_encode (i := .hlt) rfl [], decode_encode (i := .call 1) rfl [], decode_encode (i := .ret) rfl [],
    decode_encode (i := .not 2) rfl [], decode_encode (i := .cmp 0 1) rfl []⟩

end Sys2Proof
end

section
/-! Proofs of the family `40_instruction_cycle.md`: the fetch reads what the bytes from `pc` on decode to (rules R110
to R113, R227), and so does the fetch after a store onto the next instruction (rule R63). -/

namespace Sys2Proof.Machine

/-! The bytes ahead. -/

/-- The bytes of the cells from `n` up to the last one. -/
def bytesFrom (s : State) (n : Nat) : List Byte :=
  (List.range' n (Config.memCells - n)).map s.readCell

theorem codeFrom_eq_bytesFrom (s : State) : codeFrom s = bytesFrom s s.pc.toNat := rfl

@[simp] theorem length_bytesFrom (s : State) (n : Nat) : (bytesFrom s n).length = 256 - n := by
  rw [bytesFrom, List.length_map, List.length_range']

theorem bytesFrom_of_lt (s : State) {n : Nat} (h : n < 256) : bytesFrom s n = s.readCell n :: bytesFrom s (n + 1) := by
  rw [bytesFrom, show 256 - n = 256 - (n + 1) + 1 by omega, List.range'_succ, List.map_cons, bytesFrom]

theorem bytesFrom_of_ge (s : State) {n : Nat} (h : 256 ≤ n) : bytesFrom s n = [] := by
  rw [bytesFrom, Nat.sub_eq_zero_of_le h, List.range'_zero, List.map_nil]

section
variable {aluExt : Bool} {s : State} {k : Opcode}

/-! The fetch, by the number of operand bytes its opcode counts (rule R112). -/

theorem memRead_natCast (s : State) {n : Nat} (h : n < 256) : memRead n s = .ok (s.readCell n) := by
  simpa using memRead_of_inRange (addr := n) s (by omega)

theorem fetch_of_count_zero (hpc : s.pc.toNat < 256) (hk : decodeOpcode aluExt (s.readCell s.pc.toNat) = some k)
    (hn : operandCount (s.readCell s.pc.toNat) = 0) : fetch aluExt s = .ok (k.withOperands 0 0) := by
  simp [fetch, memRead_natCast s hpc, bind, Except.bind, pure, Except.pure, hk, hn]

theorem fetch_of_count_one (hpc : s.pc.toNat + 1 < 256) (hk : decodeOpcode aluExt (s.readCell s.pc.toNat) = some k)
    (hn : operandCount (s.readCell s.pc.toNat) = 1) :
    fetch aluExt s = .ok (k.withOperands (s.readCell (s.pc.toNat + 1)) 0) := by
  have ha := memRead_natCast s hpc
  push_cast at ha
  simp [fetch, memRead_natCast s (Nat.lt_of_succ_lt hpc), ha, bind, Except.bind, pure, Except.pure, hk, hn]

theorem fetch_of_count_two (hpc : s.pc.toNat + 2 < 256) (hk : decodeOpcode aluExt (s.readCell s.pc.toNat) = some k)
    (hn : operandCount (s.readCell s.pc.toNat) = 2) :
    fetch aluExt s = .ok (k.withOperands (s.readCell (s.pc.toNat + 1)) (s.readCell (s.pc.toNat + 2))) := by
  have hop := memRead_natCast s (n := s.pc.toNat) (by omega)
  have ha := memRead_natCast s (Nat.lt_of_succ_lt hpc)
  have hb := memRead_natCast s hpc
  push_cast at ha hb
  simp [fetch, hop, ha, hb, bind, Except.bind, pure, Except.pure, hk, hn]

/-! The fetch as decoding. -/

/-- The fault the running machine makes of a failed decoding (rule R227). -/
def rejectFault (s : State) : DecodeReject → FaultCause
  | .noOpcode => .addressFault (.memAddr s.pc.toNat)
  | .unknownOpcode ir => .unknownInstruction ir s.pc
  | .missingOperand _ => .addressFault (.memAddr 256)

/-- What the fetch answers where the bytes from `pc` on decode so. -/
def fetchAs (s : State) : Except DecodeReject (Instr × List Byte) → Except FaultCause Instr
  | .ok (i, _) => .ok i
  | .error r => .error (rejectFault s r)

/-- A known opcode whose operands fit is fetched as it decodes. -/
theorem fetch_eq_of_fits (hk : decodeOpcode aluExt (s.readCell s.pc.toNat) = some k)
    (hend : s.pc.toNat + operandCount (s.readCell s.pc.toNat) < 256) :
    fetch aluExt s = fetchAs s (decode aluExt (s.readCell s.pc.toNat :: bytesFrom s (s.pc.toNat + 1))) := by
  obtain ⟨hbyte, -⟩ := decodeOpcode_some hk
  have hcases := operandCount_cases k
  rw [hbyte] at hcases
  rcases hcases with hn | hn | hn <;> rw [hn] at hend
  · rw [fetch_of_count_zero hend hk hn, decode_of_count_zero hk hn]
    rfl
  · rw [fetch_of_count_one hend hk hn, bytesFrom_of_lt s hend, decode_of_count_one hk hn]
    rfl
  · rw [fetch_of_count_two hend hk hn, bytesFrom_of_lt s (Nat.lt_of_succ_lt hend), bytesFrom_of_lt s hend,
      decode_of_count_two hk hn]
    rfl

/-- The fetch is the decoding of the bytes from `pc` on, in every state. -/
theorem fetch_eq_fetchAs_decode (aluExt : Bool) (s : State) :
    fetch aluExt s = fetchAs s (decode aluExt (codeFrom s)) := by
  rw [codeFrom_eq_bytesFrom]
  rcases Nat.lt_or_ge s.pc.toNat 256 with hpc | hpc
  · rw [bytesFrom_of_lt s hpc]
    cases hk : decodeOpcode aluExt (s.readCell s.pc.toNat) with
    | none =>
      rw [fetch_of_unknown hpc hk, decode_of_unknown hk]
      rfl
    | some k =>
      rcases Nat.lt_or_ge (s.pc.toNat + operandCount (s.readCell s.pc.toNat)) 256 with hend | hend
      · exact fetch_eq_of_fits hk hend
      · have hlen : (bytesFrom s (s.pc.toNat + 1)).length < operandCount (s.readCell s.pc.toNat) := by
          rw [length_bytesFrom]
          omega
        rw [fetch_of_operand_past_end hpc hk hend, decode_of_missing hk hlen]
        rfl
  · have hraise := memRead_of_outOfRange (addr := s.pc.toNat) s (.inr (by omega))
    rw [bytesFrom_of_ge s hpc]
    simp only [fetch, hraise, bind, Except.bind]
    rfl

theorem fetch_of_decode_ok {i : Instr} {rest : List Byte} (h : decode aluExt (codeFrom s) = .ok (i, rest)) :
    fetch aluExt s = .ok i := by
  rw [fetch_eq_fetchAs_decode, h, fetchAs]

theorem fetch_of_decode_error {r : DecodeReject} (h : decode aluExt (codeFrom s) = .error r) :
    fetch aluExt s = .error (rejectFault s r) := by
  rw [fetch_eq_fetchAs_decode, h, fetchAs]

/-- The machine has every instruction it fetches (rule R166). -/
theorem presentIn_of_fetch {i : Instr} (h : fetch aluExt s = .ok i) : i.presentIn aluExt = true := by
  cases hdec : decode aluExt (codeFrom s) with
  | ok p =>
    obtain ⟨j, rest⟩ := p
    cases (fetch_of_decode_ok hdec).symm.trans h
    obtain ⟨-, hpresent⟩ := eq_encode_of_decode hdec
    exact hpresent
  | error r => cases (fetch_of_decode_error hdec).symm.trans h

/-! The step as decoding. -/

theorem stepWith_of_decode_ok {i : Instr} {rest : List Byte} (hrun : s.run = .running)
    (h : decode aluExt (codeFrom s) = .ok (i, rest)) : stepWith aluExt s = exec i s :=
  stepWith_of_fetch_ok hrun (fetch_of_decode_ok h)

theorem stepWith_of_decode_error {r : DecodeReject} (hrun : s.run = .running)
    (h : decode aluExt (codeFrom s) = .error r) : stepWith aluExt s = .next (takeFault (rejectFault s r) s) :=
  stepWith_of_fetch_error hrun (fetch_of_decode_error h)

/-- A rejected byte sequence is rejected with its own first byte. -/
theorem decode_cons_error {ir : Byte} {rest : List Byte} {r : DecodeReject}
    (h : decode aluExt (ir :: rest) = .error r) : r = .unknownOpcode ir ∨ r = .missingOperand ir := by
  cases hk : decodeOpcode aluExt ir with
  | none =>
    cases (decode_of_unknown hk rest).symm.trans h
    exact .inl rfl
  | some k =>
    rcases decode_known_cases hk rest with ⟨a, b, rest', -, hdec⟩ | hdec
    · cases hdec.symm.trans h
    · cases hdec.symm.trans h
      exact .inr rfl

end

/-- Settles O7: the fetch gives the decoded instruction, and the step of a running core is what the fetch gives. -/
theorem stepRunsTheDecodedInstruction : Obligations.StepRunsTheDecodedInstruction :=
  ⟨fun _ _ _ hrun h => stepWith_of_decode_ok hrun h, fun _ _ _ _ hrun h => stepWith_of_decode_ok hrun h⟩

/-- Settles O8: each reason not to decode is the fault of the fetch; without an opcode `pc` is past the last cell. -/
theorem stepFaultsWhereNothingDecodes : Obligations.StepFaultsWhereNothingDecodes := by
  intro aluExt s hrun hle
  refine ⟨fun h => ?_, fun ir h => stepWith_of_decode_error hrun h, fun ir h => stepWith_of_decode_error hrun h⟩
  have hpc : s.pc.toNat = 256 := by
    refine le_antisymm hle (Nat.le_of_not_lt fun hlt => ?_)
    rw [codeFrom_eq_bytesFrom, bytesFrom_of_lt s hlt] at h
    rcases decode_cons_error h with h | h <;> cases h
  have hstep := stepWith_of_decode_error hrun h
  rw [rejectFault, hpc] at hstep
  exact ⟨hpc, hstep⟩

end Sys2Proof.Machine
end

section
/-! What an instruction answers, said once as a relation: it raises a fault, or it completes. The frames of rule R37 and
the run states of rule R27 are read off the two. -/

namespace Sys2Proof.Machine

/-! The two ends of an instruction. -/

/-- The instructions that write a function of two registers to the first (rules R143, R164). -/
inductive BinaryForm (a b : Byte) : Instr → (Byte → Byte → Byte) → Prop where
  | mul : BinaryForm a b (.mul a b) aluMul
  | add : BinaryForm a b (.add a b) aluAdd
  | sub : BinaryForm a b (.sub a b) aluSub
  | div : BinaryForm a b (.div a b) aluDiv
  | mod : BinaryForm a b (.mod a b) aluMod
  | and : BinaryForm a b (.and a b) (fun u v => u &&& v)
  | or : BinaryForm a b (.or a b) (fun u v => u ||| v)
  | xor : BinaryForm a b (.xor a b) (fun u v => u ^^^ v)

/-- The instruction that reports a division by zero under this name (rules R144, R145). -/
def DivOp.instr (a b : Byte) : DivOp → Instr
  | .div => .div a b
  | .mod => .mod a b

/-- The instruction completes in `s`, with this state before its advance. -/
inductive Completes (s : State) : Instr → State → Prop where
  | hlt : Completes s .hlt { s with run := .halted }
  | ldi {a : Byte} (b : Byte) (ha : a.toNat < 8) : Completes s (.ldi a b) (s.writeReg (reg a ha) b)
  | prn {a : Byte} (ha : a.toNat < 8) : Completes s (.prn a) (emit (.print (s.readReg (reg a ha))) s)
  | binary {a b : Byte} {i : Instr} {f : Byte → Byte → Byte} (hf : BinaryForm a b i f) (ha : a.toNat < 8)
      (hb : b.toNat < 8) (hdiv : ∀ op, i = DivOp.instr a b op → s.readReg (reg b hb) ≠ 0) :
      Completes s i (s.writeReg (reg a ha) (f (s.readReg (reg a ha)) (s.readReg (reg b hb))))
  | divideByZero (op : DivOp) {a b : Byte} (ha : a.toNat < 8) (hb : b.toNat < 8) (hzero : s.readReg (reg b hb) = 0) :
      Completes s (op.instr a b) (emit (.divideByZero op s.pc) s)
  | not {a : Byte} (ha : a.toNat < 8) : Completes s (.not a) (s.writeReg (reg a ha) (~~~(s.readReg (reg a ha))))
  | cmp {a b : Byte} (ha : a.toNat < 8) (hb : b.toNat < 8) :
      Completes s (.cmp a b) { s with fl := compareFlags (s.readReg (reg a ha)) (s.readReg (reg b hb)) }
  | push {a : Byte} (ha : a.toNat < 8) (hsp : s.readReg Config.sp ≠ 0) : Completes s (.push a)
      (pushed s (if reg a ha = Config.sp then s.readReg Config.sp - 1 else s.readReg (reg a ha)))
  | pop {a : Byte} (ha : a.toNat < 8) :
      Completes s (.pop a) (incrementSp (s.writeReg (reg a ha) (s.readCell (s.readReg Config.sp).toNat)))
  | call {a : Byte} (ha : a.toNat < 8) (hsp : s.readReg Config.sp ≠ 0) : Completes s (.call a)
      { pushed s (returnAddress s) with
        pc := (if reg a ha = Config.sp then s.readReg Config.sp - 1 else s.readReg (reg a ha)).setWidth 9 }
  | ret : Completes s .ret { incrementSp s with pc := (s.readCell (s.readReg Config.sp).toNat).setWidth 9 }

/-- The instruction raises this fault in `s`: its first illegal operand, or a push below address 0 (rule R227). -/
inductive Raises (s : State) : Instr → FaultCause → Prop where
  | operand {i : Instr} {c : Byte} (h : i.regOperands.find? (fun b => decide (8 ≤ b.toNat)) = some c) :
      Raises s i (.addressFault (.regIndex c))
  | push {a : Byte} (ha : a.toNat < 8) (hsp : s.readReg Config.sp = 0) :
      Raises s (.push a) (.addressFault (.memAddr (-1)))
  | call {a : Byte} (ha : a.toNat < 8) (hsp : s.readReg Config.sp = 0) :
      Raises s (.call a) (.addressFault (.memAddr (-1)))

section
variable {i : Instr} {s t u : State} {c : FaultCause}

theorem exec_of_raises (h : Raises s i c) : exec i s = .next (takeFault c s) := by
  cases h with
  | operand h => exact exec_of_firstIllegal s h
  | push ha hsp => exact exec_push_of_sp_zero ha hsp
  | call ha hsp => exact exec_call_of_sp_zero ha hsp

theorem exec_of_binaryForm {a b : Byte} {f : Byte → Byte → Byte} (hf : BinaryForm a b i f) (ha : a.toNat < 8)
    (hb : b.toNat < 8) (hdiv : ∀ op, i = DivOp.instr a b op → s.readReg (reg b hb) ≠ 0) :
    exec i s = .next (advance i.opcode
      (s.writeReg (reg a ha) (f (s.readReg (reg a ha)) (s.readReg (reg b hb))))) := by
  cases hf with
  | mul => exact exec_mul s ha hb
  | add => exact exec_add s ha hb
  | sub => exact exec_sub s ha hb
  | and => exact exec_and s ha hb
  | or => exact exec_or s ha hb
  | xor => exact exec_xor s ha hb
  | div =>
    have h := exec_div s ha hb
    rwa [if_neg (hdiv .div rfl)] at h
  | mod =>
    have h := exec_mod s ha hb
    rwa [if_neg (hdiv .mod rfl)] at h

theorem exec_of_divisor_zero (op : DivOp) {a b : Byte} (ha : a.toNat < 8) (hb : b.toNat < 8)
    (hzero : s.readReg (reg b hb) = 0) :
    exec (op.instr a b) s = .next (advance (op.instr a b).opcode (emit (.divideByZero op s.pc) s)) := by
  cases op with
  | div =>
    have h := exec_div s ha hb
    rwa [if_pos hzero] at h
  | mod =>
    have h := exec_mod s ha hb
    rwa [if_pos hzero] at h

theorem exec_of_completes (h : Completes s i u) : exec i s = .next (advance i.opcode u) := by
  cases h with
  | hlt => exact exec_hlt s
  | ldi b ha => exact exec_ldi b s ha
  | prn ha => exact exec_prn s ha
  | binary hf ha hb hdiv => exact exec_of_binaryForm hf ha hb hdiv
  | divideByZero op ha hb hzero => exact exec_of_divisor_zero op ha hb hzero
  | not ha => exact exec_not s ha
  | cmp ha hb => exact exec_cmp s ha hb
  | push ha hsp => exact exec_push s ha hsp
  | pop ha => exact exec_pop s ha
  | call ha hsp => exact exec_call s ha hsp
  | ret => exact exec_ret s

/-- DIV and MOD complete with any divisor (rule R223). -/
theorem exists_completes_division (op : DivOp) {a b : Byte} {f : Byte → Byte → Byte}
    (hf : BinaryForm a b (op.instr a b) f) (ha : a.toNat < 8) (hb : b.toNat < 8) :
    ∃ u, Completes s (op.instr a b) u := by
  by_cases hzero : s.readReg (reg b hb) = 0
  · exact ⟨_, .divideByZero op ha hb hzero⟩
  · exact ⟨_, .binary hf ha hb fun _ _ => hzero⟩

/-- Every instruction completes or raises: none is left without a meaning. -/
theorem raises_or_completes (i : Instr) (s : State) : (∃ c, Raises s i c) ∨ ∃ u, Completes s i u := by
  cases hlegal : i.operandsLegal with
  | false =>
    obtain ⟨b, hb⟩ := exists_firstIllegal_of_not_legal hlegal
    exact .inl ⟨_, .operand hb⟩
  | true =>
    have h := (operandsLegal_iff i).mp hlegal
    cases i with
    | hlt => exact .inr ⟨_, .hlt⟩
    | ret => exact .inr ⟨_, .ret⟩
    | ldi a b => exact .inr ⟨_, .ldi b (h a List.mem_cons_self)⟩
    | prn a => exact .inr ⟨_, .prn (h a List.mem_cons_self)⟩
    | not a => exact .inr ⟨_, .not (h a List.mem_cons_self)⟩
    | pop a => exact .inr ⟨_, .pop (h a List.mem_cons_self)⟩
    | push a =>
      have ha := h a List.mem_cons_self
      by_cases hsp : s.readReg Config.sp = 0
      · exact .inl ⟨_, .push ha hsp⟩
      · exact .inr ⟨_, .push ha hsp⟩
    | call a =>
      have ha := h a List.mem_cons_self
      by_cases hsp : s.readReg Config.sp = 0
      · exact .inl ⟨_, .call ha hsp⟩
      · exact .inr ⟨_, .call ha hsp⟩
    | mul a b | add a b | sub a b | and a b | or a b | xor a b =>
      obtain ⟨ha, hb⟩ := forall_mem_pair_lt_iff.mp h
      exact .inr ⟨_, .binary (by constructor) ha hb fun op hop => by cases op <;> cases hop⟩
    | div a b =>
      obtain ⟨ha, hb⟩ := forall_mem_pair_lt_iff.mp h
      exact .inr (exists_completes_division .div .div ha hb)
    | mod a b =>
      obtain ⟨ha, hb⟩ := forall_mem_pair_lt_iff.mp h
      exact .inr (exists_completes_division .mod .mod ha hb)
    | cmp a b =>
      obtain ⟨ha, hb⟩ := forall_mem_pair_lt_iff.mp h
      exact .inr ⟨_, .cmp ha hb⟩

/-- Every way an instruction can answer a next state. -/
theorem exec_cases (h : exec i s = .next t) :
    (∃ c, Raises s i c ∧ t = takeFault c s) ∨ (∃ u, Completes s i u ∧ t = advance i.opcode u) := by
  rcases raises_or_completes i s with ⟨c, hc⟩ | ⟨u, hu⟩
  · cases (exec_of_raises hc).symm.trans h
    exact .inl ⟨c, hc, rfl⟩
  · cases (exec_of_completes hu).symm.trans h
    exact .inr ⟨u, hu, rfl⟩

/-! The comparison (rule R165): one bit by the order of the operands. -/

theorem compareFlags_of_lt {v w : Byte} (h : v.toNat < w.toNat) : compareFlags v w = 4 := by
  simp [compareFlags, h, Nat.not_lt_of_lt h, Nat.ne_of_lt h]

theorem compareFlags_of_gt {v w : Byte} (h : w.toNat < v.toNat) : compareFlags v w = 2 := by
  simp [compareFlags, h, Nat.not_lt_of_lt h, Nat.ne_of_gt h]

theorem compareFlags_self (v : Byte) : compareFlags v v = 1 := by
  simp [compareFlags]

theorem compareFlags_cases (v w : Byte) :
    compareFlags v w = 1 ∨ compareFlags v w = 2 ∨ compareFlags v w = 4 := by
  rcases Nat.lt_trichotomy v.toNat w.toNat with h | h | h
  · exact .inr (.inr (compareFlags_of_lt h))
  · obtain rfl := BitVec.eq_of_toNat_eq h
    exact .inl (compareFlags_self v)
  · exact .inr (.inl (compareFlags_of_gt h))

/-! What a register-to-register form leaves alone. -/

namespace BinaryForm

variable {a b : Byte} {f : Byte → Byte → Byte}

theorem ne_hlt (hf : BinaryForm a b i f) : i ≠ .hlt := by
  cases hf <;> exact Instr.noConfusion

theorem storeAddr (hf : BinaryForm a b i f) (s : State) : storeAddr i s = none := by
  cases hf <;> rfl

theorem writtenRegs (hf : BinaryForm a b i f) (r : RegNum) : writtenRegs i r = (a.toNat == r.val) := by
  cases hf <;> rfl

end BinaryForm

/-! What a completed instruction leaves alone, and what it does to the rest. -/

/-- A register other than the operand's is not the register the operand names. -/
theorem ne_reg_of_beq_false {a : Byte} {r : RegNum} (ha : a.toNat < 8) (h : (a.toNat == r.val) = false) :
    r ≠ reg a ha := by
  rintro rfl
  simp at h

namespace Completes

/-- Only HLT writes the run state (rule R27). -/
theorem run (h : Completes s i u) : (i = .hlt ∧ u.run = .halted) ∨ (i ≠ .hlt ∧ u.run = s.run) := by
  cases h with
  | hlt => exact .inl ⟨rfl, rfl⟩
  | binary hf => exact .inr ⟨hf.ne_hlt, rfl⟩
  | divideByZero op => exact .inr ⟨by cases op <;> exact Instr.noConfusion, rfl⟩
  | ldi | prn | not | cmp | push | pop | call | ret => exact .inr ⟨Instr.noConfusion, rfl⟩

/-- Only CMP writes the flags, to one of three values (rules R29, R165). -/
theorem fl (h : Completes s i u) :
    u.fl = s.fl ∨ ((∃ a b, i = .cmp a b) ∧ (u.fl = 1 ∨ u.fl = 2 ∨ u.fl = 4)) := by
  cases h with
  | cmp ha hb => exact .inr ⟨⟨_, _, rfl⟩, compareFlags_cases _ _⟩
  | hlt | ldi | prn | binary | divideByZero | not | push | pop | call | ret => exact .inl rfl

/-- At most one event, and which (rules R31, R132, R147). -/
theorem events (h : Completes s i u) :
    u.trace = s.trace ∨ (∃ v a, u.trace = s.trace ++ [.print v] ∧ i = .prn a) ∨
      ∃ op a b, u.trace = s.trace ++ [.divideByZero op s.pc] ∧ i = DivOp.instr a b op := by
  cases h with
  | prn => exact .inr (.inl ⟨_, _, rfl, rfl⟩)
  | divideByZero op => exact .inr (.inr ⟨op, _, _, rfl, rfl⟩)
  | hlt | ldi | binary | not | cmp | push | pop | call | ret => exact .inl rfl

/-- Only the destination and the stack pointer of the stack instructions are written (rule R37). -/
theorem readReg_of_not_written {r : RegNum} (h : Completes s i u) (hr : writtenRegs i r = false) :
    u.readReg r = s.readReg r := by
  cases h with
  | hlt | prn | divideByZero | cmp => rfl
  | ldi b ha | not ha => exact (readReg_writeReg _ _ _ _).trans (if_neg (ne_reg_of_beq_false ha hr))
  | binary hf ha hb =>
    rw [hf.writtenRegs] at hr
    exact (readReg_writeReg _ _ _ _).trans (if_neg (ne_reg_of_beq_false ha hr))
  | push =>
    have hsp : r ≠ Config.sp := by simpa [writtenRegs] using hr
    exact (readReg_pushed _ _ _).trans (if_neg hsp)
  | call =>
    have hsp : r ≠ Config.sp := by simpa [writtenRegs] using hr
    exact (readReg_pushed s (returnAddress s) r).trans (if_neg hsp)
  | pop ha =>
    obtain ⟨hreg, hsp⟩ := Bool.or_eq_false_iff.mp hr
    rw [readReg_incrementSp, if_neg (by simpa using hsp), readReg_writeReg, if_neg (ne_reg_of_beq_false ha hreg)]
  | ret =>
    have hsp : r ≠ Config.sp := by simpa [writtenRegs] using hr
    exact (readReg_incrementSp _ _).trans (if_neg hsp)

end Completes

/-- Frame of memory of a push: only the cell below the old stack pointer changes (rule R180). -/
theorem readCell_pushed_of_ne {v : Byte} (hsp : s.readReg Config.sp ≠ 0) {a : Nat} (ha : (a : Int) ≠ stackPushAddr s) :
    (pushed s v).readCell a = s.readCell a := by
  have hpos : (s.readReg Config.sp).toNat ≠ 0 := fun h0 => hsp (BitVec.eq_of_toNat_eq h0)
  rw [stackPushAddr] at ha
  rw [readCell_pushed, if_neg (by omega)]

/-- Only PUSH and CALL store, at the address below the stack pointer (rules R37, R57). -/
theorem Completes.memory (h : Completes s i u) :
    match storeAddr i s with
    | some addr => SameMemoryBut addr s u
    | none => SameMemory s u := by
  cases h with
  | push ha hsp | call ha hsp => exact fun a => readCell_pushed_of_ne hsp
  | binary hf =>
    rw [hf.storeAddr]
    exact fun _ => rfl
  | divideByZero op => cases op <;> exact fun _ => rfl
  | hlt | ldi | prn | not | cmp | pop | ret => exact fun _ => rfl

/-- An opcode that does not set `pc` leaves it to the advance (rule R116). -/
theorem Completes.pc_of_not_setsPc (h : Completes s i u) (hset : setsPc i.opcode.toByte = false) : u.pc = s.pc := by
  cases h with
  | call => cases hset.symm.trans ((setsPc_opcode_iff _).mpr (.inr ⟨_, rfl⟩))
  | ret => cases hset.symm.trans ((setsPc_opcode_iff _).mpr (.inl rfl))
  | hlt | ldi | prn | binary | divideByZero | not | cmp | push | pop => rfl

/-- RET takes `pc` from the stack, CALL from its register as it is after the push (rules R182, R183). -/
theorem Completes.pc_of_setsPc (h : Completes s i u) (hset : setsPc i.opcode.toByte = true) :
    (i = .ret ∧ u.pc = (s.readCell (s.readReg Config.sp).toNat).setWidth 9) ∨
      ∃ (a : Byte) (ha : a.toNat < 8), i = .call a ∧ u.pc = (u.readReg (reg a ha)).setWidth 9 := by
  have hi := (setsPc_opcode_iff i).mp hset
  cases h with
  | ret => exact .inl ⟨rfl, rfl⟩
  | call ha => exact .inr ⟨_, ha, rfl, congrArg (BitVec.setWidth 9) (readReg_pushed s (returnAddress s) _).symm⟩
  | binary hf => cases hf <;> simp at hi
  | divideByZero op => cases op <;> simp [DivOp.instr] at hi
  | hlt | ldi | prn | not | cmp | push | pop => simp at hi

/-! No instruction reads the run state, the cause, the trace or the flags (rules R27 to R31). -/

/-- `s` with other values in the fields no instruction reads. -/
def State.withHidden (s : State) (run : RunState) (cause : Option FaultCause) (trace : List Event) (fl : Byte) :
    State :=
  { s with run := run, cause := cause, trace := trace, fl := fl }

/-- `t` answers `s`, and would answer it likewise with other hidden fields: the run state, the cause and the flags
become functions of themselves alone, and the same events are appended to the trace. -/
def ActsUniformly (answers : State → State → Prop) (s t : State) : Prop :=
  ∃ (onRun : RunState → RunState) (onCause : Option FaultCause → Option FaultCause) (onFl : Byte → Byte)
    (es : List Event), t = t.withHidden (onRun s.run) (onCause s.cause) (s.trace ++ es) (onFl s.fl) ∧
    ∀ run cause trace fl, answers (s.withHidden run cause trace fl)
      (t.withHidden (onRun run) (onCause cause) (trace ++ es) (onFl fl))

/-- An answer that leaves every hidden field as it was, whatever it was. -/
theorem actsUniformly_of_same {answers : State → State → Prop} (hself : t = t.withHidden s.run s.cause s.trace s.fl)
    (h : ∀ run cause trace fl, answers (s.withHidden run cause trace fl) (t.withHidden run cause trace fl)) :
    ActsUniformly answers s t :=
  ⟨id, id, id, [], by rw [List.append_nil]; exact hself, fun run cause trace fl => by
    rw [List.append_nil]; exact h run cause trace fl⟩

theorem Completes.actsUniformly (h : Completes s i u) : ActsUniformly (fun s u => Completes s i u) s u := by
  cases h with
  | hlt =>
    refine ⟨fun _ => .halted, id, id, [], by rw [List.append_nil]; rfl, fun run cause trace fl => ?_⟩
    rw [List.append_nil]
    exact .hlt
  | prn ha => exact ⟨id, id, id, _, rfl, fun _ _ _ _ => .prn ha⟩
  | divideByZero op ha hb hzero => exact ⟨id, id, id, _, rfl, fun _ _ _ _ => .divideByZero op ha hb hzero⟩
  | cmp ha hb =>
    refine ⟨id, id, fun _ => _, [], by rw [List.append_nil]; rfl, fun run cause trace fl => ?_⟩
    rw [List.append_nil]
    exact .cmp ha hb
  | ldi b ha => exact actsUniformly_of_same rfl fun _ _ _ _ => .ldi b ha
  | binary hf ha hb hdiv => exact actsUniformly_of_same rfl fun _ _ _ _ => .binary hf ha hb hdiv
  | not ha => exact actsUniformly_of_same rfl fun _ _ _ _ => .not ha
  | push ha hsp => exact actsUniformly_of_same rfl fun _ _ _ _ => .push ha hsp
  | pop ha => exact actsUniformly_of_same rfl fun _ _ _ _ => .pop ha
  | call ha hsp => exact actsUniformly_of_same rfl fun _ _ _ _ => .call ha hsp
  | ret => exact actsUniformly_of_same rfl fun _ _ _ _ => .ret

theorem Raises.withHidden (h : Raises s i c) (run : RunState) (cause : Option FaultCause) (trace : List Event)
    (fl : Byte) : Raises (s.withHidden run cause trace fl) i c := by
  cases h with
  | operand h => exact .operand h
  | push ha hsp => exact .push ha hsp
  | call ha hsp => exact .call ha hsp

end

end Sys2Proof.Machine
end

section
/-! Proofs of the family `45_host_operations.md`: reset, `load`, `run()` and the console (rules R200 to R207). -/

namespace Sys2Proof.Machine

section
variable {s t : State} {bytes : List Byte} {origin : Int}

/-! What each host operation answers, by run state (rule R207). -/

theorem hostStart_of_preRun (h : s.run = .preRun) : hostStart s = .ok { s with run := .running } := if_pos h

theorem hostStart_of_not_preRun (h : s.run ≠ .preRun) : hostStart s = .error .wrongRunState := if_neg h

theorem hostReset_of_running (h : s.run = .running) : hostReset s = .error .wrongRunState := if_pos h

theorem hostReset_of_not_running (h : s.run ≠ .running) : hostReset s = .ok State.reset := if_neg h

theorem hostLoad_of_not_preRun (h : s.run ≠ .preRun) (bytes : List Byte) (origin : Int) :
    hostLoad bytes s origin = .error .wrongRunState := if_pos h

theorem hostLoad_of_not_fits (hrun : s.run = .preRun) (h : origin < 0 ∨ 256 < origin + bytes.length) :
    hostLoad bytes s origin = .error .imageDoesNotFit := by
  rw [hostLoad, if_neg (not_not.mpr hrun)]
  exact if_pos h

/-- The state with an image placed from `a` on, where `pc` then points (rule R202). -/
def loaded (s : State) (a : Nat) (bytes : List Byte) : State :=
  { s with mem := Memory.writeList s.mem a bytes, pc := BitVec.ofNat 9 a }

theorem hostLoad_of_fits (hrun : s.run = .preRun) (h0 : 0 ≤ origin) (hfit : origin + bytes.length ≤ 256) :
    hostLoad bytes s origin = .ok (loaded s origin.toNat bytes) := by
  rw [hostLoad, if_neg (not_not.mpr hrun), if_neg (by simp only [Config.memCells]; omega), loaded]

/-- A load that is accepted was made in `PreRun`, of an image that fits. -/
theorem hostLoad_eq_ok (h : hostLoad bytes s origin = .ok t) :
    s.run = .preRun ∧ (0 ≤ origin ∧ origin + bytes.length ≤ 256) ∧ t = loaded s origin.toNat bytes := by
  by_cases hrun : s.run = .preRun
  · by_cases hfit : 0 ≤ origin ∧ origin + bytes.length ≤ 256
    · cases (hostLoad_of_fits hrun hfit.1 hfit.2).symm.trans h
      exact ⟨hrun, hfit, rfl⟩
    · cases (hostLoad_of_not_fits hrun (by omega)).symm.trans h
  · cases (hostLoad_of_not_preRun hrun bytes origin).symm.trans h

/-! The loaded state. -/

theorem toNat_loaded_pc (s : State) (bytes : List Byte) {a : Nat} (h : a ≤ 256) :
    (loaded s a bytes).pc.toNat = a := by
  rw [loaded, BitVec.toNat_ofNat]
  omega

/-- The image's bytes stand from its origin on, every other cell is as before. -/
theorem readCell_loaded (s : State) (a b : Nat) (bytes : List Byte) :
    (loaded s a bytes).readCell b =
      if h : a ≤ b ∧ b < a + bytes.length then bytes[b - a]'(by omega) else s.readCell b :=
  Memory.read_writeList bytes s.mem a b

theorem GoodState.loaded {aluExt : Bool} (hs : GoodState aluExt s) {a : Nat} (hfit : a + bytes.length ≤ 256) :
    GoodState aluExt (loaded s a bytes) :=
  ⟨Memory.wf_writeList hs.memWf hfit, by rw [toNat_loaded_pc s bytes (by omega)]; omega, hs.flLegal, hs.flAbsent,
    hs.reported, hs.causeLegal⟩

/-! The reset state (rules R33, R201). -/

theorem readCell_reset (a : Nat) : State.reset.readCell a = 0 := Memory.read_nil a

theorem reset_good (aluExt : Bool) : GoodState aluExt State.reset where
  memWf := Memory.wf_nil
  pcBound := Nat.zero_le 256
  flLegal := .inl rfl
  flAbsent := fun _ => rfl
  reported := (faultsReported_iff_of_not_faulted (by decide)).mpr ⟨rfl, fun _ he => absurd he List.not_mem_nil⟩
  causeLegal := fun _ h => nomatch h

end

/-- Settles O43: at reset memory, trace and cause are empty and FL is 0. -/
theorem resetIsGood : Obligations.ResetIsGood := reset_good

/-- Settles O44: the cells read as unlisted ones; the fields have the table's values. -/
theorem resetStateIsTheTable : Obligations.ResetStateIsTheTable :=
  ⟨readCell_reset, by decide, by decide, rfl, rfl, rfl, rfl, rfl⟩

/-- Settles O45: an accepted load places bytes inside memory, the start of a run moves the run state among those with
no fault, and the reset state is good. -/
theorem hostOperationsKeepTheInvariant : Obligations.HostOperationsKeepTheInvariant := by
  intro aluExt s t hs
  refine ⟨fun bytes origin h => ?_, fun h => ?_, fun h => ?_⟩
  · obtain ⟨-, ⟨h0, hfit⟩, rfl⟩ := hostLoad_eq_ok h
    exact hs.loaded (by omega)
  · by_cases hrun : s.run = .preRun
    · cases (hostStart_of_preRun hrun).symm.trans h
      exact hs.withRun (by simp [hrun]) (by decide)
    · cases (hostStart_of_not_preRun hrun).symm.trans h
  · by_cases hrun : s.run = .running
    · cases (hostReset_of_running hrun).symm.trans h
    · cases (hostReset_of_not_running hrun).symm.trans h
      exact reset_good aluExt

/-- Settles O46: the accepted load is a list of consecutive writes, each read back at its own place. -/
theorem loadPlacesTheImage : Obligations.LoadPlacesTheImage := by
  intro bytes s origin hrun
  refine ⟨fun h0 hfit => ?_, fun h => hostLoad_of_not_fits hrun h⟩
  refine ⟨_, hostLoad_of_fits hrun h0 hfit, ?_, fun k hk => ?_, fun a ha => ?_, fun _ _ => rfl, ⟨rfl, rfl, rfl⟩, rfl⟩
  · rw [toNat_loaded_pc s bytes (by omega), Int.toNat_of_nonneg h0]
  · rw [readCell_loaded, dif_pos ⟨Nat.le_add_right _ k, Nat.add_lt_add_left hk _⟩]
    simp only [Nat.add_sub_cancel_left]
  · rw [readCell_loaded, dif_neg (by omega)]

/-- Settles O49: each operation tests the run state first. -/
theorem hostOperationsByRunState : Obligations.HostOperationsByRunState := fun _ =>
  ⟨fun h => ⟨hostStart_of_not_preRun h, hostLoad_of_not_preRun h⟩, hostReset_of_running, hostReset_of_not_running⟩

/-! The console (rule R205). -/

/-- The characters a numeral is made of: a digit stands for its number, and only that of 0 is `'0'`. -/
theorem digitChar_spec : ∀ d < 10, ('0' ≤ digitChar d ∧ digitChar d ≤ '9') ∧
    (digitChar d).toNat - '0'.toNat = d ∧ (digitChar d = '0' → d = 0) := by
  decide

/-- The characters of decimal digits are the numeral of the number the digits stand for. -/
theorem isDecimalNumeral_map {ds : List Nat} {n : Nat} (hd : ∀ d ∈ ds, d < 10)
    (hval : ds.foldl (fun k d => 10 * k + d) 0 = n) (hzero : ds.head? = some 0 → ds = [0]) (hne : ds ≠ []) :
    IsDecimalNumeral (ds.map digitChar) n := by
  refine ⟨fun ch hch => ?_, ?_, fun hhead => ?_, by simpa using hne⟩
  · obtain ⟨d, hmem, rfl⟩ := List.mem_map.mp hch
    obtain ⟨hrange, -⟩ := digitChar_spec d (hd d hmem)
    exact hrange
  · rw [List.foldl_map, ← hval]
    refine List.foldl_ext _ _ 0 fun k d hmem => ?_
    obtain ⟨-, hdigit, -⟩ := digitChar_spec d (hd d hmem)
    rw [hdigit]
  · rw [List.head?_map, Option.map_eq_some_iff] at hhead
    obtain ⟨d, hhead, hchar⟩ := hhead
    obtain ⟨-, -, hd0⟩ := digitChar_spec d (hd d (List.mem_of_head? hhead))
    obtain rfl := hd0 hchar
    rw [hzero hhead]
    rfl

/-- A byte has at most three digits, and the first of several is not 0. -/
theorem decimalNumeral_spec (v : Byte) : IsDecimalNumeral (decimalNumeral v) v.toNat := by
  have hlt : v.toNat < 256 := v.isLt
  unfold decimalNumeral
  by_cases hone : v.toNat < 10
  · simp only [hone, if_true]
    exact isDecimalNumeral_map (ds := [v.toNat]) (by simpa using hone) (by simp) (by simp) (by simp)
  · by_cases htwo : v.toNat < 100
    · simp only [hone, htwo, if_true, if_false]
      exact isDecimalNumeral_map (ds := [v.toNat / 10, v.toNat % 10]) (by simp; omega) (by simp; omega) (by simp; omega)
        (by simp)
    · simp only [hone, htwo, if_false]
      exact isDecimalNumeral_map (ds := [v.toNat / 100, v.toNat / 10 % 10, v.toNat % 10]) (by simp; omega)
        (by simp; omega) (by simp; omega) (by simp)

theorem consoleOutput_append (es fs : List Event) : consoleOutput (es ++ fs) = consoleOutput es ++ consoleOutput fs :=
  List.flatMap_append

theorem consoleOutput_singleton (e : Event) : consoleOutput [e] = eventLine e := by
  rw [consoleOutput, List.flatMap_singleton]

/-- Settles O50: the numeral is built from the decimal digits of the value; the output maps each event to its line. -/
theorem consoleShowsDecimalLines : Obligations.ConsoleShowsDecimalLines := by
  refine ⟨decimalNumeral_spec, consoleOutput_append, fun v => consoleOutput_singleton _, fun e he => ?_⟩
  cases e with
  | print v => exact absurd rfl (he v)
  | divideByZero | fault => exact ⟨rfl, rfl⟩

end Sys2Proof.Machine
end

section
/-! Proofs of the families `10_state.md` and `40_instruction_cycle.md`: frames, the transitions of the run state, the
advance, and the state no instruction reads. -/

namespace Sys2Proof.Machine

section
variable {aluExt : Bool} {i : Instr} {s t u : State} {c : FaultCause}

/-! The run state (rule R27). -/

/-- An instruction other than HLT leaves the run state, unless it faults. -/
theorem exec_run_of_ne_hlt (hi : i ≠ .hlt) (h : exec i s = .next t) : t.run = s.run ∨ ∃ c, t = takeFault c s := by
  rcases exec_cases h with ⟨c, -, ht⟩ | ⟨u, hu, rfl⟩
  · exact .inr ⟨c, ht⟩
  · rcases hu.run with ⟨hhlt, -⟩ | ⟨-, hrun⟩
    · exact absurd hhlt hi
    · exact .inl ((advance_run _ u).trans hrun)

/-- How a step ends: halted by HLT, faulted by a fault taken, or running by any other instruction. -/
theorem stepWith_run_cases (h : stepWith aluExt s = .next t) :
    (t.run = .halted ∧ fetch aluExt s = .ok .hlt) ∨ (∃ c, t = takeFault c s) ∨
      (t.run = .running ∧ ∃ i, i ≠ .hlt ∧ fetch aluExt s = .ok i) := by
  obtain ⟨hrun, ⟨i, hfetch, hexec⟩ | ⟨c, -, ht⟩⟩ := stepWith_next h
  · by_cases hi : i = .hlt
    · subst hi
      cases (exec_hlt s).symm.trans hexec
      exact .inl ⟨advance_run _ _, hfetch⟩
    · rcases exec_run_of_ne_hlt hi hexec with ht | ht
      · exact .inr (.inr ⟨ht.trans hrun, i, hi, hfetch⟩)
      · exact .inr (.inl ht)
  · exact .inr (.inl ⟨c, ht⟩)

theorem stepWith_halted_iff (h : stepWith aluExt s = .next t) : t.run = .halted ↔ fetch aluExt s = .ok .hlt := by
  refine ⟨fun ht => ?_, fun hf => ?_⟩
  · rcases stepWith_run_cases h with ⟨-, hf⟩ | ⟨c, rfl⟩ | ⟨hrun, -⟩
    · exact hf
    · cases ht
    · cases hrun.symm.trans ht
  · obtain ⟨hrun, -⟩ := stepWith_next h
    cases (stepWith_of_fetch_ok hrun hf).symm.trans h
    exact advance_run _ _

theorem stepWith_faulted_iff (h : stepWith aluExt s = .next t) : t.run = .faulted ↔ ∃ c, t = takeFault c s := by
  refine ⟨fun ht => ?_, fun ⟨c, hc⟩ => hc ▸ takeFault_run c s⟩
  rcases stepWith_run_cases h with ⟨hrun, -⟩ | hc | ⟨hrun, -⟩
  · cases hrun.symm.trans ht
  · exact hc
  · cases hrun.symm.trans ht

/-- No step is taken outside `Running` (rule R119). -/
theorem stepWith_of_not_running (aluExt : Bool) (h : s.run ≠ .running) : ∃ f, stepWith aluExt s = .fault f := by
  unfold stepWith
  cases hrun : s.run with
  | running => exact absurd hrun h
  | preRun | halted | faulted => exact ⟨_, rfl⟩

/-- Every step of a running core has a next state: `exec` always answers one (rule R118). -/
theorem exists_exec_next (i : Instr) (s : State) : ∃ t, exec i s = .next t := by
  rcases raises_or_completes i s with ⟨c, hc⟩ | ⟨u, hu⟩
  · exact ⟨_, exec_of_raises hc⟩
  · exact ⟨_, exec_of_completes hu⟩

theorem exists_stepWith_next (aluExt : Bool) (h : s.run = .running) : ∃ t, stepWith aluExt s = .next t := by
  cases hf : fetch aluExt s with
  | ok i =>
    rw [stepWith_of_fetch_ok h hf]
    exact exists_exec_next i s
  | error c => exact ⟨_, stepWith_of_fetch_error h hf⟩

/-! The hidden fields. -/

theorem advance_withHidden (k : Opcode) (s : State) (run : RunState) (cause : Option FaultCause) (trace : List Event)
    (fl : Byte) :
    advance k (s.withHidden run cause trace fl) = (advance k s).withHidden run cause trace fl := by
  rw [advance, advance]
  split <;> rfl

theorem exec_actsUniformly (h : exec i s = .next t) : ActsUniformly (fun s t => exec i s = .next t) s t := by
  rcases exec_cases h with ⟨c, hc, rfl⟩ | ⟨u, hu, rfl⟩
  · exact ⟨fun _ => .faulted, fun _ => some c, id, [.fault c], rfl, fun run cause trace fl =>
      exec_of_raises (hc.withHidden run cause trace fl)⟩
  · obtain ⟨onRun, onCause, onFl, es, hself, hother⟩ := hu.actsUniformly
    refine ⟨onRun, onCause, onFl, es, ?_, fun run cause trace fl => ?_⟩
    · rw [← advance_withHidden, ← hself]
    · rw [← advance_withHidden]
      exact exec_of_completes (hother run cause trace fl)

/-- The fetch reads `pc` and memory alone. -/
theorem fetch_withHidden (aluExt : Bool) (s : State) (run : RunState) (cause : Option FaultCause) (trace : List Event)
    (fl : Byte) : fetch aluExt (s.withHidden run cause trace fl) = fetch aluExt s := rfl

/-- States that agree on registers, `pc`, memory and run state step alike, and append the same events. -/
theorem stepWith_withHidden (cause : Option FaultCause) (trace : List Event) (fl : Byte)
    (h : stepWith aluExt s = .next t) : ∃ cause' es fl', t.trace = s.trace ++ es ∧
      stepWith aluExt (s.withHidden s.run cause trace fl) = .next (t.withHidden t.run cause' (trace ++ es) fl') := by
  obtain ⟨hrun, hstep⟩ := stepWith_next h
  have hrun' : (s.withHidden s.run cause trace fl).run = .running := hrun
  have hfetch' := fetch_withHidden aluExt s s.run cause trace fl
  rcases hstep with ⟨i, hfetch, hexec⟩ | ⟨c, hfetch, rfl⟩
  · obtain ⟨onRun, onCause, onFl, es, hself, hother⟩ := exec_actsUniformly hexec
    have ht : t.run = onRun s.run := congrArg State.run hself
    refine ⟨onCause cause, es, onFl fl, congrArg State.trace hself, ?_⟩
    rw [ht]
    exact (stepWith_of_fetch_ok hrun' (hfetch'.trans hfetch)).trans (hother s.run cause trace fl)
  · exact ⟨some c, [.fault c], fl, rfl, stepWith_of_fetch_error hrun' (hfetch'.trans hfetch)⟩

/-! The events of a step (rule R31). -/

/-- At most one event a step, and of which instruction it is. -/
theorem stepWith_events (h : stepWith aluExt s = .next t) :
    t.trace = s.trace ∨ (∃ v a, t.trace = s.trace ++ [.print v] ∧ fetch aluExt s = .ok (.prn a)) ∨
      (∃ op a b, t.trace = s.trace ++ [.divideByZero op s.pc] ∧ fetch aluExt s = .ok (DivOp.instr a b op)) ∨
      ∃ c, t = takeFault c s := by
  obtain ⟨-, ⟨i, hfetch, hexec⟩ | ⟨c, -, ht⟩⟩ := stepWith_next h
  · rcases exec_cases hexec with ⟨c, -, ht⟩ | ⟨u, hu, rfl⟩
    · exact .inr (.inr (.inr ⟨c, ht⟩))
    · rw [advance_trace]
      rcases hu.events with hsame | ⟨v, a, htrace, rfl⟩ | ⟨op, a, b, htrace, rfl⟩
      · exact .inl hsame
      · exact .inr (.inl ⟨v, a, htrace, hfetch⟩)
      · exact .inr (.inr (.inl ⟨op, a, b, htrace, hfetch⟩))
  · exact .inr (.inr (.inr ⟨c, ht⟩))

end

/-- Settles O37: the other state is the first with other hidden fields, from which the step is taken likewise. -/
theorem hiddenStateIsNeverRead : Obligations.HiddenStateIsNeverRead := by
  intro aluExt s s' t hx hpc hmem hrun h
  have hs' : s' = s.withHidden s.run s'.cause s'.trace s'.fl := by
    rw [hrun, State.withHidden, ← hx, ← hpc, ← hmem]
  obtain ⟨cause, es, fl, htrace, hstep⟩ := stepWith_withHidden s'.cause s'.trace s'.fl h
  rw [← hs'] at hstep
  exact ⟨_, es, hstep, rfl, rfl, rfl, rfl, htrace, rfl⟩

/-- Settles O9: every instruction answers a next state, and so does a failed fetch. -/
theorem runningCoreAlwaysSteps : Obligations.RunningCoreAlwaysSteps := by
  intro aluExt s hrun
  obtain ⟨t, ht⟩ := exists_stepWith_next aluExt hrun
  refine ⟨t, ht, ?_⟩
  rcases stepWith_run_cases ht with ⟨hhalted, -⟩ | ⟨c, rfl⟩ | ⟨hrunning, -⟩
  · exact .inr (.inl hhalted)
  · exact .inr (.inr (takeFault_run c s))
  · exact .inl hrunning

/-- Settles O10: how a step and an instruction end gives the transitions; that an instruction acts uniformly on the
hidden fields gives that it does not read the run state. -/
theorem runStateTransitions : Obligations.RunStateTransitions := by
  refine ⟨rfl, fun s hrun => ⟨hostStart_of_preRun hrun, fun bytes origin t h => ?_⟩,
    fun aluExt s hrun => stepWith_of_not_running aluExt hrun, fun aluExt s t h => ?_,
    fun i s t hi h => exec_run_of_ne_hlt hi h, fun i s t r h => ?_⟩
  · obtain ⟨-, -, rfl⟩ := hostLoad_eq_ok h
    exact hrun
  · obtain ⟨hrunning, -⟩ := stepWith_next h
    refine ⟨hrunning, fun hpre => ?_, stepWith_halted_iff h, stepWith_faulted_iff h⟩
    rcases stepWith_run_cases h with ⟨ht, -⟩ | ⟨c, rfl⟩ | ⟨ht, -⟩
    · cases ht.symm.trans hpre
    · cases hpre
    · cases ht.symm.trans hpre
  · obtain ⟨onRun, onCause, onFl, es, hself, hother⟩ := exec_actsUniformly h
    refine ⟨_, hother r s.cause s.trace s.fl, ?_⟩
    have ht : t.run = onRun s.run := congrArg State.run hself
    rw [ht]
    exact hself.symm

/-- The advance of an opcode that does not set `pc`, as a number: nothing is reduced (rule R116). -/
theorem toNat_advance_pc {k : Opcode} {u : State} (hset : setsPc k.toByte = false) (hpc : u.pc.toNat < 256) :
    (advance k u).pc.toNat = u.pc.toNat + 1 + operandCount k.toByte := by
  have hle := operandCount_toByte_le_two k
  rw [advance_pc, hset, if_neg Bool.false_ne_true, BitVec.toNat_add, BitVec.toNat_ofNat]
  omega

/-- An opcode that sets `pc` itself has no advance (rule R116). -/
theorem advance_of_setsPc {k : Opcode} (hset : setsPc k.toByte = true) (u : State) : advance k u = u := by
  rw [advance, if_pos hset]

theorem toNat_zeroExtend (b : Byte) : (b.setWidth 9 : Pc).toNat = b.toNat := by
  rw [BitVec.toNat_setWidth]
  omega

/-- Settles O11: the completed instruction left `pc` to the advance, or set it and is not advanced. -/
theorem advanceFollowsOpcodeBits : Obligations.AdvanceFollowsOpcodeBits := by
  intro i s t hrun hpc h hnot
  obtain ⟨operands, henc, -⟩ := exists_encode_eq i
  refine ⟨_, operands, henc, ?_⟩
  rcases exec_cases h with ⟨c, -, rfl⟩ | ⟨u, hu, rfl⟩
  · exact absurd (takeFault_run c s) hnot
  · refine ⟨fun hset => ?_, fun hset => ?_⟩
    · have hupc := hu.pc_of_not_setsPc hset
      rw [toNat_advance_pc hset (by rwa [hupc]), hupc]
    · rw [advance_of_setsPc hset]
      rcases hu.pc_of_setsPc hset with ⟨rfl, hupc⟩ | ⟨a, ha, rfl, hupc⟩
      · exact .inl ⟨rfl, by rw [hupc, toNat_zeroExtend]⟩
      · exact .inr ⟨a, ha, rfl, by rw [hupc, toNat_zeroExtend]⟩

/-- Settles O20: of the events a step can append only the division's own is a `DivideByZero`. -/
theorem divisionByZeroReportsItsAddress : Obligations.DivisionByZeroReportsItsAddress := by
  intro aluExt s t op p h htrace
  rcases stepWith_events h with hsame | ⟨v, a, hprint, -⟩ | ⟨op', a, b, hdiv, hfetch⟩ | ⟨c, rfl⟩
  · simp [hsame] at htrace
  · simp [hprint] at htrace
  · obtain ⟨rfl, rfl⟩ : op' = op ∧ s.pc = p := by simpa [hdiv] using htrace
    exact ⟨rfl, a, b, by cases op' <;> exact hfetch⟩
  · simp at htrace

/-- Settles O33: a fault stores nothing; a completed instruction only at its store address. -/
theorem onlyPushAndCallStore : Obligations.OnlyPushAndCallStore := by
  intro i s t h
  rcases exec_cases h with ⟨c, -, rfl⟩ | ⟨u, hu, rfl⟩
  · cases storeAddr i s with
    | none => exact fun _ => rfl
    | some addr => exact fun _ _ => rfl
  · have hmem := hu.memory
    cases haddr : storeAddr i s with
    | none =>
      rw [haddr] at hmem
      exact fun a => (readCell_advance _ u a).trans (hmem a)
    | some addr =>
      rw [haddr] at hmem
      exact fun a ha => (readCell_advance _ u a).trans (hmem a ha)

/-- Settles O34: a fault writes no register; a completed instruction only those `writtenRegs` names. -/
theorem onlyDestinationRegistersChange : Obligations.OnlyDestinationRegistersChange := by
  intro i s t r h hr
  rcases exec_cases h with ⟨c, -, rfl⟩ | ⟨u, hu, rfl⟩
  · exact readReg_takeFault c s r
  · rw [readReg_advance, hu.readReg_of_not_written hr]

/-- An instruction leaves the flags, unless it is CMP. -/
theorem exec_fl {i : Instr} {s t : State} (h : exec i s = .next t) :
    t.fl = s.fl ∨ ((∃ a b, i = .cmp a b) ∧ (t.fl = 1 ∨ t.fl = 2 ∨ t.fl = 4)) := by
  rcases exec_cases h with ⟨c, -, rfl⟩ | ⟨u, hu, rfl⟩
  · exact .inl (takeFault_fl c s)
  · rw [advance_fl]
    exact hu.fl

/-- Settles O35: taking a fault leaves the flags, and of the completed instructions CMP alone writes them. -/
theorem onlyCmpWritesFlags : Obligations.OnlyCmpWritesFlags := fun _ _ _ h => exec_fl h

/-- Settles O36: the events of a step, the two divisions told apart. -/
theorem traceOnlyGrows : Obligations.TraceOnlyGrows := by
  intro aluExt s t h
  rcases stepWith_events h with hsame | hprint | ⟨op, a, b, hdiv, hfetch⟩ | ⟨c, rfl⟩
  · exact .inl hsame
  · exact .inr (.inl hprint)
  · cases op with
    | div => exact .inr (.inr (.inl ⟨_, a, b, hdiv, hfetch⟩))
    | mod => exact .inr (.inr (.inr (.inl ⟨_, a, b, hdiv, hfetch⟩)))
  · exact .inr (.inr (.inr (.inr ⟨c, takeFault_trace c s, takeFault_run c s, takeFault_cause c s⟩)))

/-- Settles O38: a step that ends in `Faulted` is the taking of a fault in the state before it. -/
theorem faultsArePrecise : Obligations.FaultsArePrecise := by
  intro aluExt s t h hfaulted
  obtain ⟨c, rfl⟩ := (stepWith_faulted_iff h).mp hfaulted
  exact ⟨fun r _ => readReg_takeFault c s r, readCell_takeFault c s, rfl, rfl⟩

end Sys2Proof.Machine
end

section
/-! Proofs of the families `40_instruction_cycle.md`, `43_alu_ext.md` and `45_host_operations.md`: what `ALU_EXT` gates
(rule R166), the invariant along a run (rules R118, R119), and the run loop (rules R119, R203). -/

namespace Sys2Proof.Machine

/-! The extension. -/

/-- The opcode values of the extension (rule R86). -/
theorem toByte_mem_of_needsAluExt {k : Opcode} (h : k.needsAluExt = true) :
    k.toByte ∈ ([0xA8, 0xAA, 0xAB, 0x69, 0xA7] : List Byte) := by
  revert h; cases k <;> decide

/-- On every byte but the five the decoders with and without the extension select alike. -/
theorem decodeOpcode_false_eq_true {b : Byte} (h : b ∉ ([0xA8, 0xAA, 0xAB, 0x69, 0xA7] : List Byte)) :
    decodeOpcode false b = decodeOpcode true b := by
  cases htrue : decodeOpcode true b with
  | some k =>
    obtain ⟨rfl, -⟩ := decodeOpcode_some htrue
    have hk : k.needsAluExt = false := Bool.eq_false_of_not_eq_true fun hk => h (toByte_mem_of_needsAluExt hk)
    exact decodeOpcode_toByte false k (by simp [hk])
  | none =>
    cases hfalse : decodeOpcode false b with
    | none => rfl
    | some k =>
      obtain ⟨rfl, -⟩ := decodeOpcode_some hfalse
      cases htrue.symm.trans (decodeOpcode_toByte true k rfl)

/-- `ALU_EXT` bears on the fetch through the opcode byte alone. -/
theorem fetch_false_eq_true {s : State}
    (h : s.pc.toNat < 256 → s.readCell s.pc.toNat ∉ ([0xA8, 0xAA, 0xAB, 0x69, 0xA7] : List Byte)) :
    fetch false s = fetch true s := by
  rcases Nat.lt_or_ge s.pc.toNat 256 with hpc | hpc
  · simp only [fetch, memRead_natCast s hpc, bind, Except.bind, decodeOpcode_false_eq_true (h hpc)]
  · have hraise := memRead_of_outOfRange (addr := s.pc.toNat) s (.inr (by omega))
    simp only [fetch, hraise, bind, Except.bind]

theorem stepWith_false_eq_true {s : State}
    (h : s.pc.toNat < 256 → s.readCell s.pc.toNat ∉ ([0xA8, 0xAA, 0xAB, 0x69, 0xA7] : List Byte)) :
    stepWith false s = stepWith true s := by
  unfold stepWith runningStep
  rw [fetch_false_eq_true h]

/-- Without the extension no step changes the flags: a CMP is not fetched. -/
theorem stepWith_false_fl {s t : State} (h : stepWith false s = .next t) : t.fl = s.fl := by
  obtain ⟨-, ⟨i, hfetch, hexec⟩ | ⟨c, -, rfl⟩⟩ := stepWith_next h
  · rcases exec_fl hexec with hfl | ⟨⟨a, b, rfl⟩, -⟩
    · exact hfl
    · cases presentIn_of_fetch hfetch
  · exact takeFault_fl c s

/-- Settles O6: the parameter reaches the step through the fetch, the fetch through the opcode byte, and the opcode map
differs at the five values alone. -/
theorem extensionGatesItsFiveOpcodesOnly : Obligations.ExtensionGatesItsFiveOpcodesOnly := by
  refine ⟨fun b hb => ?_, fun s h => stepWith_false_eq_true h, fun s t h => stepWith_false_fl h, by decide⟩
  have hgated : decodeOpcode false b = none ∧ (decodeOpcode true b).isSome = true := by
    rcases hb with rfl | rfl | rfl | rfl | rfl <;> decide
  obtain ⟨hunknown, hknown⟩ := hgated
  refine ⟨hunknown, hknown, ?_⟩
  rintro s hrun hpc rfl
  exact ⟨_, stepWith_of_fetch_error hrun (fetch_of_unknown hpc hunknown), takeFault_faultedWith _ s⟩

/-! The invariant along a run. -/

/-- Settles O41: `step` is the step with `ALU_EXT` as configured. -/
theorem everyStepKeepsTheInvariant : Obligations.EveryStepKeepsTheInvariant :=
  ⟨fun _ _ hs h => stepWith_keeps_good hs h, fun _ _ _ hs h => stepWith_keeps_good hs h⟩

section
variable {aluExt : Bool} {s t : State}

/-- A step keeps the events before it at the front (rule R31). -/
theorem stepWith_trace_append (h : stepWith aluExt s = .next t) : ∃ es, t.trace = s.trace ++ es := by
  rcases stepWith_reports h with ⟨c, rfl⟩ | ⟨-, -, es, htrace, -⟩
  · exact ⟨_, takeFault_trace c s⟩
  · exact ⟨es, htrace⟩

/-! The loop, one step at a time. -/

theorem runLoop_succ_of_next (n : Nat) (h : stepWith aluExt s = .next t) :
    runLoop aluExt (n + 1) s = runLoop aluExt n t := by
  rw [runLoop, h]

/-- Where no step is taken the loop stays (rule R119). -/
theorem runLoop_of_not_running (n : Nat) (h : s.run ≠ .running) : runLoop aluExt n s = s := by
  cases n with
  | zero => rfl
  | succ n =>
    obtain ⟨f, hf⟩ := stepWith_of_not_running aluExt h
    rw [runLoop, hf]

theorem runLoop_trace_append (n : Nat) (s : State) : ∃ es, (runLoop aluExt n s).trace = s.trace ++ es := by
  induction n generalizing s with
  | zero => exact ⟨[], (List.append_nil _).symm⟩
  | succ n ih =>
    by_cases hrun : s.run = .running
    · obtain ⟨t, ht⟩ := exists_stepWith_next aluExt hrun
      obtain ⟨es, hes⟩ := stepWith_trace_append ht
      obtain ⟨fs, hfs⟩ := ih t
      exact ⟨es ++ fs, by rw [runLoop_succ_of_next n ht, hfs, hes, List.append_assoc]⟩
    · exact ⟨[], by rw [runLoop_of_not_running _ hrun, List.append_nil]⟩

/-- A run is one run followed by another from where it ended. -/
theorem runLoop_add (n k : Nat) (s : State) : runLoop aluExt (n + k) s = runLoop aluExt k (runLoop aluExt n s) := by
  induction n generalizing s with
  | zero => rw [Nat.zero_add, runLoop]
  | succ n ih =>
    by_cases hrun : s.run = .running
    · obtain ⟨t, ht⟩ := exists_stepWith_next aluExt hrun
      rw [Nat.succ_add, runLoop_succ_of_next _ ht, ih, runLoop_succ_of_next _ ht]
    · rw [runLoop_of_not_running _ hrun, runLoop_of_not_running _ hrun, runLoop_of_not_running _ hrun]

/-- A run that began in `Running` is running still, or has ended (rule R121). -/
theorem runLoop_run_cases (n : Nat) (hrun : s.run = .running) :
    (runLoop aluExt n s).run = .running ∨ (runLoop aluExt n s).ended = true := by
  induction n generalizing s with
  | zero => exact .inl hrun
  | succ n ih =>
    obtain ⟨t, ht⟩ := exists_stepWith_next aluExt hrun
    rw [runLoop_succ_of_next n ht]
    rcases stepWith_run_cases ht with ⟨ht, -⟩ | ⟨c, rfl⟩ | ⟨ht, -⟩
    · rw [runLoop_of_not_running n (by simp [ht])]
      exact .inr (by simp [State.ended, ht])
    · rw [runLoop_of_not_running n (by simp)]
      exact .inr (by simp [State.ended])
    · exact ih ht

/-! `run()` (rule R203). -/

theorem hostRun_of_preRun (aluExt : Bool) (n : Nat) (h : s.run = .preRun) :
    hostRun aluExt n s = .ok ((runLoop aluExt n { s with run := .running }).status.map fun st =>
      (runLoop aluExt n { s with run := .running }, st)) := by
  simp only [hostRun, hostStart_of_preRun h, bind, Except.bind, pure, Except.pure]

/-- A run that has not ended within its fuel is running still. -/
theorem hostRun_eq_none_iff (n : Nat) (h : s.run = .preRun) :
    hostRun aluExt n s = .ok none ↔ (runLoop aluExt n { s with run := .running }).run = .running := by
  rw [hostRun_of_preRun aluExt n h, Except.ok.injEq, Option.map_eq_none_iff, State.status]
  rcases runLoop_run_cases (aluExt := aluExt) n (s := { s with run := .running }) rfl with hrun | hended
  · simp [State.ended, hrun]
  · have hne : (runLoop aluExt n { s with run := .running }).run ≠ .running := by
      intro hrun
      simp [State.ended, hrun] at hended
    simp [hended, hne]

end

/-- Settles O42: induction over the fuel, a step keeping the state good and the events at the front. -/
theorem runsStayGoodAndKeepTheirTrace : Obligations.RunsStayGoodAndKeepTheirTrace := fun _ n s hs =>
  ⟨runLoop_keeps_good n hs, runLoop_trace_append n s⟩

/-- Settles O40: outside `Running` no step is taken, outside `PreRun` the host can neither load nor run. -/
theorem faultedIsTerminal : Obligations.FaultedIsTerminal := by
  intro aluExt t h
  have hpre : t.run ≠ .preRun := by simp [h]
  have hrunning : t.run ≠ .running := by simp [h]
  refine ⟨by simp only [stepWith, h], hostStart_of_not_preRun hpre, hostLoad_of_not_preRun hpre,
    hostReset_of_not_running hrunning, fun n => runLoop_of_not_running n hrunning⟩

/-- Without an image the first fetch finds the zero byte, which is no opcode (rule R203). -/
theorem runLoop_from_reset (aluExt : Bool) (n : Nat) :
    runLoop aluExt (n + 1) { State.reset with run := .running } =
      takeFault (.unknownInstruction 0 0) { State.reset with run := .running } := by
  have hunknown : decodeOpcode aluExt 0 = none := by cases aluExt <;> decide
  have hstep : stepWith aluExt { State.reset with run := .running } =
      .next (takeFault (.unknownInstruction 0 0) { State.reset with run := .running }) :=
    stepWith_of_fetch_error rfl (fetch_of_unknown (by decide) hunknown)
  rw [runLoop_succ_of_next n hstep, runLoop_of_not_running n (by simp)]

/-- Settles O47: `run()` is the loop from `Running`, which stays once it has ended. -/
theorem runStepsUntilTheEnd : Obligations.RunStepsUntilTheEnd := by
  refine ⟨fun s => ⟨hostStart_of_preRun, hostStart_of_not_preRun⟩, fun aluExt n s u st h => ?_,
    fun aluExt s hrun => forall_congr' fun n => hostRun_eq_none_iff n hrun, fun aluExt n => ?_⟩
  · obtain ⟨hpre, hu, hstatus⟩ := hostRun_eq_some h
    obtain ⟨hended, hst⟩ := status_eq_some_iff.mp hstatus
    refine ⟨hpre, hended, hst, hu, fun k => ?_⟩
    have hstay : u.run ≠ .running := by rcases hended with h | h <;> simp [h]
    rw [hostRun_of_preRun _ _ hpre, runLoop_add, ← hu, runLoop_of_not_running k hstay, hstatus]
    rfl
  · refine ⟨takeFault (.unknownInstruction 0 0) { State.reset with run := .running }, ?_⟩
    rw [hostRun_of_preRun aluExt (n + 1) rfl, runLoop_from_reset]
    rfl

end Sys2Proof.Machine
end

section
/-! Proofs of the families `41_system_and_data.md`, `42_alu.md` and `43_alu_ext.md`: HLT, PRN and the ALU (rules R114,
R130, R132, R140 to R147, R160 to R165). -/

namespace Sys2Proof.Machine

/-- Settles O13: validation comes first in every meaning. -/
theorem firstIllegalOperandIsReported : Obligations.FirstIllegalOperandIsReported := fun _ s _ h =>
  exec_of_firstIllegal s h

/-! HLT. -/

/-- Settles O14: HLT changes the run state and advances; outside `Running` and `PreRun` step and host are refused. -/
theorem hltEndsTheRun : Obligations.HltEndsTheRun := by
  refine ⟨rfl, fun s => ?_, fun s hpc => ?_, fun aluExt s h => ?_, fun aluExt s t h => (stepWith_halted_iff h).mp⟩
  · exact ⟨_, exec_hlt s, by simp, advance_pc_of _ _, fun r _ => by simp, fun a => by simp, by simp, by simp, by simp⟩
  · refine ⟨_, exec_hlt s, ?_, by simp⟩
    exact (toNat_advance_pc (by decide) (by simp [hpc])).trans (by rw [hpc]; decide)
  · have hpre : s.run ≠ .preRun := by simp [h]
    have hrunning : s.run ≠ .running := by simp [h]
    exact ⟨by simp only [stepWith, h], hostLoad_of_not_preRun hpre, hostStart_of_not_preRun hpre,
      hostReset_of_not_running hrunning⟩

/-! PRN. -/

/-- Settles O16: a legal PRN is one event with the advance, whose line is the numeral of the value; an illegal index
stops it in the validation, and at 255 the fetch raises. -/
theorem prnEmitsTheRegister : Obligations.PrnEmitsTheRegister := by
  refine ⟨fun a => rfl, fun a s ha => ?_, fun a s ha => ?_, fun aluExt s hrun hpc hop => ?_⟩
  · have hwrites := writesTrace_advance_emit (k := .prn) (len := 2) rfl (.print (s.readReg (reg a ha))) s
    refine ⟨_, exec_prn s ha, hwrites, _, decimalNumeral_spec _, ?_⟩
    rw [advance_trace, emit_trace, consoleOutput_append, consoleOutput_singleton, eventLine, List.append_assoc]
  · exact ⟨_, conclude_bind_of_error (regIndex_of_ge ha), takeFault_faultedWith _ s⟩
  · have hk : decodeOpcode aluExt (s.readCell s.pc.toNat) = some .prn := by
      rw [hop]
      exact decodeOpcode_toByte aluExt .prn (Bool.or_true aluExt)
    have hcount : operandCount (s.readCell s.pc.toNat) = 1 := by
      rw [hop]
      decide
    have hfetch := fetch_of_operand_past_end (by omega) hk (by omega)
    exact ⟨_, stepWith_of_fetch_error hrun hfetch, takeFault_faultedWith _ s⟩

/-! The ALU functions as numbers (rule R146). -/

theorem toNat_aluMul (u v : Byte) : (aluMul u v).toNat = u.toNat * v.toNat % 256 := by
  rw [aluMul, toNat_narrow]
  exact_mod_cast rfl

theorem toNat_aluAdd (u v : Byte) : (aluAdd u v).toNat = (u.toNat + v.toNat) % 256 := by
  rw [aluAdd, toNat_narrow]
  omega

theorem toNat_aluSub (u v : Byte) : ((aluSub u v).toNat : Int) = (u.toNat - v.toNat : Int) % 256 := by
  rw [aluSub, toNat_narrow]
  omega

theorem toNat_aluDiv (u v : Byte) : (aluDiv u v).toNat = u.toNat / v.toNat := by
  rw [aluDiv, BitVec.toNat_ofNat]
  exact Nat.mod_eq_of_lt (Nat.lt_of_le_of_lt (Nat.div_le_self _ _) u.isLt)

theorem toNat_aluMod (u v : Byte) : (aluMod u v).toNat = u.toNat % v.toNat := by
  rw [aluMod, BitVec.toNat_ofNat]
  exact Nat.mod_eq_of_lt (Nat.lt_of_le_of_lt (Nat.mod_le _ _) u.isLt)

/-- Inverting every bit is subtraction from 255 (rule R163). -/
theorem toNat_complement (v : Byte) : (~~~v).toNat = 255 - v.toNat := BitVec.toNat_not

/-- A byte other than 0 has a positive number. -/
theorem toNat_pos_of_ne_zero {v : Byte} (h : v ≠ 0) : 0 < v.toNat :=
  Nat.pos_of_ne_zero fun h0 => h (BitVec.eq_of_toNat_eq h0)

/-- Settles O17: each is one register write with the advance, of the exact result reduced. -/
theorem arithmeticIsExactModulo256 : Obligations.ArithmeticIsExactModulo256 := fun _ _ s ha hb =>
  ⟨⟨_, _, exec_mul s ha hb, writesRegister_advance_writeReg rfl _ _ _, toNat_aluMul _ _⟩,
    ⟨_, _, exec_add s ha hb, writesRegister_advance_writeReg rfl _ _ _, toNat_aluAdd _ _⟩,
    ⟨_, _, exec_sub s ha hb, writesRegister_advance_writeReg rfl _ _ _, toNat_aluSub _ _⟩⟩

/-- Settles O18: quotient and remainder of the same division, neither of which is reduced. -/
theorem divisionGivesQuotientAndRemainder : Obligations.DivisionGivesQuotientAndRemainder := by
  intro a b s ha hb hne
  refine ⟨_, _, _, _, exec_of_binaryForm .div ha hb fun _ _ => hne, writesRegister_advance_writeReg rfl _ _ _,
    exec_of_binaryForm .mod ha hb fun _ _ => hne, writesRegister_advance_writeReg rfl _ _ _, ?_, ?_⟩
  · rw [toNat_aluDiv, toNat_aluMod]
    exact (Nat.div_add_mod' _ _).symm
  · rw [toNat_aluMod]
    exact Nat.mod_lt _ (toNat_pos_of_ne_zero hne)

/-- Settles O21: each is one register write with the advance, of the bitwise result. -/
theorem bitwiseOperationsActBitByBit : Obligations.BitwiseOperationsActBitByBit :=
  ⟨fun _ _ s ha hb =>
    ⟨⟨_, _, exec_and s ha hb, writesRegister_advance_writeReg rfl _ _ _, fun _ => BitVec.getLsbD_and⟩,
      ⟨_, _, exec_or s ha hb, writesRegister_advance_writeReg rfl _ _ _, fun _ => BitVec.getLsbD_or⟩,
      ⟨_, _, exec_xor s ha hb, writesRegister_advance_writeReg rfl _ _ _, fun _ => BitVec.getLsbD_xor⟩⟩,
    fun _ s ha => ⟨_, _, exec_not s ha, writesRegister_advance_writeReg rfl _ _ _, toNat_complement _⟩⟩

/-! CMP. -/

/-- The three bits tell the order of the operands, and one of them is set (rules R29, R165). -/
theorem compareFlags_spec (u v : Byte) :
    (flagL (compareFlags u v) = true ↔ u.toNat < v.toNat) ∧ (flagG (compareFlags u v) = true ↔ v.toNat < u.toNat) ∧
    (flagE (compareFlags u v) = true ↔ u = v) ∧
    (compareFlags u v = 4 ∨ compareFlags u v = 2 ∨ compareFlags u v = 1) := by
  rcases Nat.lt_trichotomy u.toNat v.toNat with h | h | h
  · have hne : u ≠ v := fun heq => Nat.ne_of_lt h (congrArg BitVec.toNat heq)
    rw [compareFlags_of_lt h]
    exact ⟨iff_of_true (by decide) h, iff_of_false (by decide) (Nat.not_lt_of_lt h), iff_of_false (by decide) hne,
      .inl rfl⟩
  · obtain rfl := BitVec.eq_of_toNat_eq h
    rw [compareFlags_self]
    exact ⟨iff_of_false (by decide) (Nat.lt_irrefl _), iff_of_false (by decide) (Nat.lt_irrefl _),
      iff_of_true (by decide) rfl, .inr (.inr rfl)⟩
  · have hne : u ≠ v := fun heq => Nat.ne_of_gt h (congrArg BitVec.toNat heq)
    rw [compareFlags_of_gt h]
    exact ⟨iff_of_false (by decide) (Nat.not_lt_of_lt h), iff_of_true (by decide) h, iff_of_false (by decide) hne,
      .inr (.inl rfl)⟩

/-- Settles O22: CMP writes the flags register alone, with the value of the comparison. -/
theorem cmpSetsExactlyOneFlag : Obligations.CmpSetsExactlyOneFlag := by
  intro a b s ha hb
  obtain ⟨hl, hg, he, hone⟩ := compareFlags_spec (s.readReg (reg a ha)) (s.readReg (reg b hb))
  refine ⟨_, exec_cmp s ha hb, ?_⟩
  rw [advance_fl]
  exact ⟨hl, hg, he, hone, fun r _ => by simp, fun a => by simp, by simp, by simp, by simp, advance_pc_of _ _⟩

end Sys2Proof.Machine
end

section
/-! Proofs of the family `44_stack_and_call.md`: PUSH, POP, CALL and RET (rules R180 to R187), and the fetch of a pushed
byte (rule R63). -/

namespace Sys2Proof.Machine

/-! What a push leaves, in the terms of the frames. -/

section
variable {s : State}

theorem toNat_sub_one {v : Byte} (h : v ≠ 0) : (v - 1).toNat = v.toNat - 1 := by
  have hpos := toNat_pos_of_ne_zero h
  have hlt : v.toNat < 256 := v.isLt
  rw [BitVec.toNat_sub, show (1 : Byte).toNat = 1 from rfl]
  omega

theorem toNat_add_one (v : Byte) : (v + 1).toNat = (v.toNat + 1) % 256 := BitVec.toNat_add v 1

/-- The store address as a number is one below the stack pointer. -/
theorem toNat_stackPushAddr (s : State) : (stackPushAddr s).toNat = (s.readReg Config.sp).toNat - 1 := by
  rw [stackPushAddr]
  omega

/-- The decremented stack pointer is the store address (rule R184). -/
theorem toNat_sp_sub_one (hsp : s.readReg Config.sp ≠ 0) :
    ((s.readReg Config.sp - 1).toNat : Int) = stackPushAddr s := by
  have hpos := toNat_pos_of_ne_zero hsp
  rw [toNat_sub_one hsp, stackPushAddr]
  omega

@[simp] theorem readReg_pushed_sp (s : State) (v : Byte) :
    (pushed s v).readReg Config.sp = s.readReg Config.sp - 1 :=
  (readReg_pushed s v _).trans (if_pos rfl)

theorem sameRegistersBut_pushed (s : State) (v : Byte) : SameRegistersBut [Config.sp] s (pushed s v) := fun r hr =>
  (readReg_pushed s v r).trans (if_neg fun h => hr (List.mem_singleton.mpr h))

/-- The pushed value is at the store address, and so at the new top (rule R184). -/
theorem readCell_pushed_addr (s : State) (v : Byte) : (pushed s v).readCell (stackPushAddr s).toNat = v := by
  rw [readCell_pushed, toNat_stackPushAddr, if_pos rfl]

theorem readCell_pushed_top (hsp : s.readReg Config.sp ≠ 0) (v : Byte) :
    (pushed s v).readCell (s.readReg Config.sp - 1).toNat = v := by
  rw [readCell_pushed, toNat_sub_one hsp, if_pos rfl]

/-- The value a PUSH stores and a CALL jumps to, as a number: register 7 is read decremented (rule R187). -/
theorem toNat_pushOperand (hsp : s.readReg Config.sp ≠ 0) (r : RegNum) :
    ((if r = Config.sp then s.readReg Config.sp - 1 else s.readReg r).toNat : Int) =
      if r = Config.sp then stackPushAddr s else (s.readReg r).toNat := by
  split
  · exact toNat_sp_sub_one hsp
  · rfl

/-- The return address as a number (rule R182). -/
theorem toNat_returnAddress (s : State) : (returnAddress s).toNat = (s.pc.toNat + 2) % 256 := by
  rw [returnAddress, toNat_narrow]
  omega

theorem sameRegistersBut_incrementSp (s : State) : SameRegistersBut [Config.sp] s (incrementSp s) := fun r hr =>
  (readReg_incrementSp s r).trans (if_neg fun h => hr (List.mem_singleton.mpr h))

@[simp] theorem readReg_incrementSp_sp (s : State) :
    (incrementSp s).readReg Config.sp = s.readReg Config.sp + 1 :=
  (readReg_incrementSp s _).trans (if_pos rfl)

/-- `pc` set and nothing else changed: the end of CALL and RET. -/
def jumpTo (p : Pc) (s : State) : State :=
  { s with pc := p }

@[simp] theorem jumpTo_pc (p : Pc) (s : State) : (jumpTo p s).pc = p := rfl
@[simp] theorem jumpTo_run (p : Pc) (s : State) : (jumpTo p s).run = s.run := rfl
@[simp] theorem jumpTo_cause (p : Pc) (s : State) : (jumpTo p s).cause = s.cause := rfl
@[simp] theorem jumpTo_trace (p : Pc) (s : State) : (jumpTo p s).trace = s.trace := rfl
@[simp] theorem jumpTo_fl (p : Pc) (s : State) : (jumpTo p s).fl = s.fl := rfl
@[simp] theorem readReg_jumpTo (p : Pc) (s : State) (r : RegNum) : (jumpTo p s).readReg r = s.readReg r := rfl
@[simp] theorem readCell_jumpTo (p : Pc) (s : State) (a : Nat) : (jumpTo p s).readCell a = s.readCell a := rfl

/-- CALL is a push of the return address and a jump, with no advance (rule R182). -/
theorem exec_call_eq_jumpTo {a : Byte} (ha : a.toNat < 8) (hsp : s.readReg Config.sp ≠ 0) :
    exec (.call a) s = .next (jumpTo ((if reg a ha = Config.sp then s.readReg Config.sp - 1
      else s.readReg (reg a ha)).setWidth 9) (pushed s (returnAddress s))) := by
  rw [exec_call s ha hsp, advance_of_setsPc (by decide)]
  rfl

/-- RET is an increment of the stack pointer and a jump, with no advance (rule R183). -/
theorem exec_ret_eq_jumpTo (s : State) :
    exec .ret s = .next (jumpTo ((s.readCell (s.readReg Config.sp).toNat).setWidth 9) (incrementSp s)) := by
  rw [exec_ret, advance_of_setsPc (by decide)]
  rfl

end

/-- Settles O27: the push raises before any effect. -/
theorem stackPointerDoesNotWrapDown : Obligations.StackPointerDoesNotWrapDown := fun _ _ ha hsp =>
  ⟨exec_push_of_sp_zero ha hsp, exec_call_of_sp_zero ha hsp⟩

/-- Settles O23: PUSH is a push of its register with the advance. -/
theorem pushStoresBelowTheStackPointer : Obligations.PushStoresBelowTheStackPointer := by
  intro a s ha hsp
  refine ⟨_, _, exec_push s ha hsp, rfl, rfl, ?_, ?_, fun b hb => ?_, fun r hr => ?_, ⟨by simp, by simp, by simp⟩,
    by simp, advance_pc_of _ _⟩
  · rw [readReg_advance, readReg_pushed_sp, toNat_sp_sub_one hsp]
  · rw [readCell_advance, readCell_pushed_addr, toNat_pushOperand hsp]
  · rw [readCell_advance, readCell_pushed_of_ne hsp hb]
  · rw [readReg_advance, sameRegistersBut_pushed s _ r hr]

/-- Settles O24: POP is a register write and an increment of the stack pointer as it is after the write. -/
theorem popLoadsTheTopOfStack : Obligations.PopLoadsTheTopOfStack := by
  intro a s ha
  refine ⟨_, _, exec_pop s ha, rfl, fun hne => ⟨?_, ?_⟩, fun heq => ?_, fun r hr => ?_, fun b => by simp,
    ⟨by simp, by simp, by simp⟩, by simp, advance_pc_of _ _⟩
  · rw [readReg_advance, readReg_incrementSp, if_neg hne, readReg_writeReg_same]
  · rw [readReg_advance, readReg_incrementSp_sp, readReg_writeReg, if_neg hne.symm, toNat_add_one]
  · rw [readReg_advance, readReg_incrementSp_sp, heq, readReg_writeReg_same, toNat_add_one]
  · obtain ⟨hreg, hsp⟩ : r ≠ reg a ha ∧ r ≠ Config.sp := by simpa using hr
    rw [readReg_advance, readReg_incrementSp, if_neg hsp, readReg_writeReg, if_neg hreg]

/-- Settles O25: the jump changes `pc` alone, the push the stack pointer and the cell at the new top. -/
theorem callPushesTheReturnAddress : Obligations.CallPushesTheReturnAddress := by
  intro a s ha hsp
  refine ⟨_, _, exec_call_eq_jumpTo ha hsp, rfl, rfl, ?_, ?_, ?_, fun b hb => ?_, fun r hr => ?_,
    ⟨by simp, by simp, by simp⟩, by simp⟩
  · rw [readReg_jumpTo, readReg_pushed_sp, toNat_sp_sub_one hsp]
  · rw [readCell_jumpTo, readCell_pushed_addr, toNat_returnAddress]
  · rw [jumpTo_pc, toNat_zeroExtend, toNat_pushOperand hsp]
  · rw [readCell_jumpTo, readCell_pushed_of_ne hsp hb]
  · rw [readReg_jumpTo, sameRegistersBut_pushed s _ r hr]

/-- Settles O26: the jump changes `pc` alone, the increment the stack pointer. -/
theorem retJumpsToTheTopOfStack : Obligations.RetJumpsToTheTopOfStack := by
  intro s
  refine ⟨_, exec_ret_eq_jumpTo s, ?_, ?_, fun r hr => ?_, fun b => by simp, ⟨by simp, by simp, by simp⟩, by simp⟩
  · rw [jumpTo_pc, toNat_zeroExtend]
  · rw [readReg_jumpTo, readReg_incrementSp_sp, toNat_add_one]
  · rw [readReg_jumpTo, sameRegistersBut_incrementSp s r hr]

/-- Where `t` has the registers of `s` after a push, and `v` is what a PUSH of `r` pushed, popping `v` into `r` restores
every register (rule R181). -/
theorem readReg_pop_of_pushed {s t : State} {v : Byte} {r : RegNum} (ht : ∀ q, t.readReg q = (pushed s v).readReg q)
    (hv : v = if r = Config.sp then s.readReg Config.sp - 1 else s.readReg r) (q : RegNum) :
    (incrementSp (t.writeReg r v)).readReg q = s.readReg q := by
  rw [readReg_incrementSp, readReg_writeReg, readReg_writeReg, ht, ht, readReg_pushed_sp, readReg_pushed]
  by_cases hr : r = Config.sp
  · subst hr
    by_cases hq : q = Config.sp
    · rw [if_pos hq, if_pos rfl, hv, if_pos rfl, BitVec.sub_add_cancel, hq]
    · rw [if_neg hq, if_neg hq, if_neg hq]
  · by_cases hq : q = Config.sp
    · rw [if_pos hq, if_neg (Ne.symm hr), BitVec.sub_add_cancel, hq]
    · by_cases hqr : q = r
      · rw [if_neg hq, if_pos hqr, hv, if_neg hr, hqr]
      · rw [if_neg hq, if_neg hqr, if_neg hq]

/-- Settles O28: POP reads the cell PUSH wrote, at the pointer PUSH left. -/
theorem pushThenPopRestoresRegisters : Obligations.PushThenPopRestoresRegisters := by
  intro a s ha hsp
  refine ⟨_, _, exec_push s ha hsp, exec_pop _ ha, fun q => ?_, fun b hb => ?_, ?_⟩
  · rw [readReg_advance .pop, readReg_advance, readCell_advance, readReg_pushed_sp, readCell_pushed_top hsp]
    exact readReg_pop_of_pushed (readReg_advance .push _) rfl q
  · rw [readCell_advance, readCell_incrementSp, readCell_writeReg, readCell_advance, readCell_pushed_of_ne hsp hb]
  · rw [advance_pc_of, incrementSp_pc, writeReg_pc, advance_pc_of, pushed_pc, BitVec.add_assoc]
    rfl

/-- Settles O29: RET reads the return address the CALL pushed, at the pointer it left. -/
theorem callThenRetResumes : Obligations.CallThenRetResumes := by
  intro a s ha hsp hpc
  refine ⟨_, exec_call_eq_jumpTo ha hsp, fun u husp hcell => ⟨_, exec_ret_eq_jumpTo u, ?_, ?_⟩⟩
  · rw [readReg_jumpTo, readReg_pushed_sp] at husp hcell
    rw [readCell_jumpTo, readCell_pushed_top hsp] at hcell
    rw [jumpTo_pc, toNat_zeroExtend, husp, hcell, toNat_returnAddress, Nat.mod_eq_of_lt hpc]
  · rw [readReg_jumpTo, readReg_pushed_sp] at husp
    rw [readReg_jumpTo, readReg_incrementSp_sp, husp, BitVec.sub_add_cancel]

/-! The fetch of a stored byte. -/

/-- The next step of a running machine sees the byte in the cell `pc` points at (rules R63, R110 to R113). -/
theorem nextStepSees_of_readCell (aluExt : Bool) {t : State} {v : Byte} (hrun : t.run = .running)
    (hpc : t.pc.toNat < 256) (hv : t.readCell t.pc.toNat = v) : NextStepSees aluExt v t := by
  have hcode : codeFrom t = v :: bytesFrom t (t.pc.toNat + 1) := by
    rw [codeFrom_eq_bytesFrom, bytesFrom_of_lt t hpc, hv]
  refine ⟨_, hcode, ?_⟩
  cases hdec : decode aluExt (v :: bytesFrom t (t.pc.toNat + 1)) with
  | ok p => exact stepWith_of_decode_ok (rest := p.2) hrun (hcode ▸ hdec)
  | error r =>
    have hstep := stepWith_of_decode_error hrun (hcode ▸ hdec)
    rcases decode_cons_error hdec with rfl | rfl
    · exact ⟨rfl, hstep⟩
    · exact ⟨rfl, hstep⟩

/-- A push that leaves `pc` at the store address has its value seen by the next step. -/
theorem nextStepSees_of_pushed (aluExt : Bool) {s t : State} {v : Byte} (hrun : t.run = .running)
    (hmem : t.mem = (pushed s v).mem) (hpc : (t.pc.toNat : Int) = stackPushAddr s) : NextStepSees aluExt v t := by
  have haddr : t.pc.toNat = (stackPushAddr s).toNat := by rw [← hpc, Int.toNat_natCast]
  have hlt : t.pc.toNat < 256 := by
    have := (s.readReg Config.sp).isLt
    rw [haddr, toNat_stackPushAddr]
    omega
  refine nextStepSees_of_readCell aluExt hrun hlt ?_
  rw [State.readCell, hmem, haddr]
  exact readCell_pushed_addr s v

/-- Settles O31: a PUSH or CALL that leaves the machine running has pushed, and the next fetch reads the cell. -/
theorem storedByteIsFetchedNext : Obligations.StoredByteIsFetchedNext := by
  refine ⟨fun aluExt a v s t ha _ h hrun hpc hv => ?_, fun aluExt a v s t _ h hrun hpc hv => ?_⟩
  · by_cases hsp : s.readReg Config.sp = 0
    · cases (exec_push_of_sp_zero ha hsp).symm.trans h
      cases hrun
    · cases (exec_push s ha hsp).symm.trans h
      exact nextStepSees_of_pushed aluExt hrun (by rw [advance_mem, hv]) hpc
  · rcases Nat.lt_or_ge a.toNat 8 with ha | ha
    · by_cases hsp : s.readReg Config.sp = 0
      · cases (exec_call_of_sp_zero ha hsp).symm.trans h
        cases hrun
      · cases (exec_call_eq_jumpTo ha hsp).symm.trans h
        obtain rfl : v = returnAddress s := BitVec.eq_of_toNat_eq (hv.trans (toNat_returnAddress s).symm)
        exact nextStepSees_of_pushed aluExt hrun rfl hpc
    · cases (conclude_bind_of_error (k := .call) (s := s) (regIndex_of_ge ha)).symm.trans h
      cases hrun

/-! Pushes in a row (rule R186). -/

theorem execTimes_succ {i : Instr} {s t : State} (h : exec i s = .next t) (n : Nat) :
    execTimes i (n + 1) s = execTimes i n t := by
  rw [execTimes, h]

/-- One more time, at the end. -/
theorem execTimes_succ_last {i : Instr} {n : Nat} {s t : State} (h : execTimes i n s = .next t) :
    execTimes i (n + 1) s = exec i t := by
  induction n generalizing s with
  | zero =>
    cases h
    obtain ⟨u, hu⟩ := exists_exec_next i t
    rw [execTimes_succ hu, hu, execTimes]
  | succ n ih =>
    obtain ⟨u, hu⟩ := exists_exec_next i s
    rw [execTimes_succ hu] at h ⊢
    exact ih h

/-- What push number `k` (from 0) stores, begun at the reset stack pointer: the register, or the pointer itself. -/
def storedByPush (a : Byte) (s : State) (k : Nat) : Byte :=
  if h : a.toNat < 7 then s.readReg ⟨a.toNat, by omega⟩ else BitVec.ofNat 8 (243 - k)

/-- `t` is `s`, with the reset stack pointer, after `n` pushes of register `a`. -/
structure AfterPushes (a : Byte) (s : State) (n : Nat) (t : State) : Prop where
  sp : (t.readReg Config.sp).toNat = 244 - n
  run : t.run = s.run
  regs : SameRegistersBut [Config.sp] s t
  cells : ∀ k < n, t.readCell (243 - k) = storedByPush a s k

section
variable {a : Byte} {s t : State} {n : Nat}

theorem AfterPushes.sp_ne_zero (h : AfterPushes a s n t) (hn : n < 244) : t.readReg Config.sp ≠ 0 := by
  intro h0
  have hsp := h.sp
  rw [h0, show (0 : Byte).toNat = 0 from rfl] at hsp
  omega

/-- After `n` pushes the next one stores its own value. -/
theorem AfterPushes.pushOperand (h : AfterPushes a s n t) (ha : a.toNat < 8) (hn : n < 244) :
    (if reg a ha = Config.sp then t.readReg Config.sp - 1 else t.readReg (reg a ha)) = storedByPush a s n := by
  by_cases hseven : a.toNat < 7
  · have hreg : reg a ha ≠ Config.sp := fun heq => Nat.ne_of_lt hseven (congrArg Fin.val heq)
    rw [if_neg hreg, storedByPush, dif_pos hseven, h.regs _ (by simpa using hreg)]
  · have hreg : reg a ha = Config.sp := Fin.ext (show a.toNat = 7 by omega)
    rw [if_pos hreg, storedByPush, dif_neg hseven]
    apply BitVec.eq_of_toNat_eq
    rw [toNat_sub_one (h.sp_ne_zero hn), h.sp, BitVec.toNat_ofNat]
    omega

/-- A further push keeps the account, while the stack pointer is not 0. -/
theorem AfterPushes.push (h : AfterPushes a s n t) (ha : a.toNat < 8) (hn : n < 244) :
    ∃ u, exec (.push a) t = .next u ∧ AfterPushes a s (n + 1) u := by
  have hsp := h.sp
  have hne := h.sp_ne_zero hn
  refine ⟨_, exec_push t ha hne, ?_, ?_, fun r hr => ?_, fun k hk => ?_⟩
  · rw [readReg_advance, readReg_pushed_sp, toNat_sub_one hne, hsp]
    rfl
  · rw [advance_run, pushed_run, h.run]
  · rw [readReg_advance, sameRegistersBut_pushed t _ r hr, h.regs r hr]
  · rw [readCell_advance, readCell_pushed, h.pushOperand ha hn, hsp]
    by_cases hlast : k = n
    · subst hlast
      exact if_pos (by omega)
    · rw [if_neg (by omega), h.cells k (by omega)]

theorem exists_afterPushes (ha : a.toNat < 8) (hreset : s.readReg Config.sp = Config.spReset) (hn : n ≤ 244) :
    ∃ t, execTimes (.push a) n s = .next t ∧ AfterPushes a s n t := by
  induction n with
  | zero =>
    have hsp : (s.readReg Config.sp).toNat = 244 := by
      rw [hreset]
      rfl
    exact ⟨s, rfl, hsp, rfl, fun _ _ => rfl, fun _ hk => absurd hk (Nat.not_lt_zero _)⟩
  | succ n ih =>
    obtain ⟨t, ht, hafter⟩ := ih (Nat.le_of_succ_le hn)
    obtain ⟨u, hu, hafter'⟩ := hafter.push ha hn
    exact ⟨u, (execTimes_succ_last ht).trans hu, hafter'⟩

end

/-- Settles O30: induction over the pushes; after 244 of them the stack pointer is 0, where a push faults. -/
theorem stackHoldsExactly244Pushes : Obligations.StackHoldsExactly244Pushes := by
  intro a s ha hreset _
  refine ⟨fun n hn => ?_, ?_⟩
  · obtain ⟨t, ht, hafter⟩ := exists_afterPushes ha hreset hn
    exact ⟨t, ht, hafter.sp, hafter.run, hafter.cells⟩
  · obtain ⟨t, ht, hafter⟩ := exists_afterPushes ha hreset (Nat.le_refl 244)
    have hzero : t.readReg Config.sp = 0 := BitVec.eq_of_toNat_eq hafter.sp
    exact ⟨_, (execTimes_succ_last ht).trans (exec_push_of_sp_zero ha hzero), rfl, hzero, rfl⟩

end Sys2Proof.Machine
end
